-- ==== Sys2Proof/Word.lean ====
section
/-! DEFINITION. The two widths of the core: bytes and 16-bit addresses (00_scope.md R5, R7). -/

namespace Sys2Proof

/-- A register, datum, opcode or operand byte: 8 bits, unsigned (R5, R7). `+` on it is the spec's `+8`. -/
abbrev Byte := BitVec 8

/-- PC and a bus address: 16 bits, unsigned (R5, R7). `+` on it is the spec's `+16`. -/
abbrev Word := BitVec 16

end Sys2Proof
end

