-- ==== Sys2Proof/Machine/Bits.lean ====
section
/-! DEFINITION. The value notation of 00_scope.md R7: zero and sign extension, and a 16-bit value from two bytes. -/

namespace Sys2Proof.Machine

/-- `zext_16(b)` (R7). -/
def zext16 (b : Byte) : Word := b.zeroExtend 16

/-- `sext_16(b)`: defined for completeness, as in R7; no rule in scope uses it. -/
def sext16 (b : Byte) : Word := b.signExtend 16

/-- `hi:lo`, that is `hi * 256 + lo` (R7). The arguments stand in the order the bytes lie in memory (R41). -/
def hilo (lo hi : Byte) : Word := hi ++ lo

end Sys2Proof.Machine
end

