-- ==== Sys2Proof/Machine/Flags.lean ====
section
/-! DEFINITION. The flag unit: the layout of P, set, clear, test, and the update after a load (10_state.md R18, R19,
41_alu_flags.md R88, R89). -/

namespace Sys2Proof.Machine

/-- The eight flags of P, high to low (R18). -/
inductive Flag where
  | n | v | u | b | d | i | z | c
  deriving DecidableEq, Repr

/-- The place of a flag's bit in P (R18). -/
def Flag.bit : Flag → Nat
  | .n => 7 | .v => 6 | .u => 5 | .b => 4 | .d => 3 | .i => 2 | .z => 1 | .c => 0

/-- The flag's mask in P (R18). -/
def Flag.mask : Flag → Byte
  | .n => 0x80#8 | .v => 0x40#8 | .u => 0x20#8 | .b => 0x10#8
  | .d => 0x08#8 | .i => 0x04#8 | .z => 0x02#8 | .c => 0x01#8

/-- `set(f)` (R88). -/
def setFlag (f : Flag) (p : Byte) : Byte := p ||| f.mask

/-- `clear(f)` (R88). -/
def clearFlag (f : Flag) (p : Byte) : Byte := p &&& ~~~f.mask

/-- `test(f)` (R88). -/
def testFlag (f : Flag) (p : Byte) : Bool := (p &&& f.mask) != 0#8

/-- `P.f <- b` (R8). -/
def writeFlag (f : Flag) (b : Bool) (p : Byte) : Byte := if b then setFlag f p else clearFlag f p

/-- `UpdateZN(v)` on P (R89). -/
def updateZN (v p : Byte) : Byte := writeFlag .n v.msb (writeFlag .z (v == 0#8) p)

end Sys2Proof.Machine
end

