-- ==== Sys2Proof/Machine/Memory.lean ====
section
/-! DEFINITION. The bytes of the reference bus (20_memory.md R38) in one canonical form: addresses strictly rising and
below 65536, no entry equal to what an unlisted address reads as. -/

namespace Sys2Proof.Machine

/-- A total map from 16-bit address to byte, written as the list of its listed bytes (R36, R38). -/
abbrev Memory := List Host.Cell

/-- What an address that is not listed reads as: DESIGN CHOICE 0x00 (log entry 2); the spec leaves it free (R174). -/
def Memory.unlisted : Byte := 0x00#8

/-- The byte at an address. -/
def Memory.read : Memory → Nat → Byte
  | [], _ => Memory.unlisted
  | (k, w) :: m, a => if a = k then w else Memory.read m a

/-- The memory with one byte replaced. -/
def Memory.write : Memory → Nat → Byte → Memory
  | [], a, v => if v = Memory.unlisted then [] else [(a, v)]
  | (k, w) :: m, a, v =>
    if a < k then (if v = Memory.unlisted then (k, w) :: m else (a, v) :: (k, w) :: m)
    else if a = k then (if v = Memory.unlisted then m else (a, v) :: m)
    else (k, w) :: Memory.write m a v

/-- The canonical form. -/
def Memory.wf : Memory → Bool
  | [] => true
  | (k, w) :: m => decide (k < 65536) && (w != Memory.unlisted) && m.all (fun c => decide (k < c.1)) && Memory.wf m

end Sys2Proof.Machine
end

