-- ==== Sys2Proof/Syntax.lean ====
section
/-! DEFINITION. Mnemonics, addressing modes and the instructions, one constructor for each row of
spec/opcode_table.json (30_encoding.md R56, R58, R59). -/

namespace Sys2Proof

/-- The mnemonic of an opcode descriptor (R58). `unimplemented` stands for every mnemonic that has no executor (R142). -/
inductive Mnemonic where
  | lda | ldx | ldy | sta | stx | sty | unimplemented
  deriving DecidableEq, Repr

/-- The fourteen addressing modes, "a closed tagged variant" (R56). `implied` is the spec's Implied/Zero. -/
inductive Mode where
  | accumulator | implied | immediate
  | zeroPage | zeroPageX | zeroPageY
  | relative
  | indirectX | indirectY
  | absolute | absoluteX | absoluteY
  | indirect | unimplemented
  deriving DecidableEq, Repr

/-- What a caller asks the resolver for: an effective address or a value (40_addressing.md R65, R66). -/
inductive OperandForm where
  | address | value
  deriving DecidableEq, Repr

/-- The three general registers (10_state.md R13). -/
inductive Reg where
  | a | x | y
  deriving DecidableEq, Repr

/-- An opcode descriptor: what the opcode table gives for one opcode byte (R58, 00_scope.md glossary). -/
structure Descriptor where
  mnemonic : Mnemonic
  mode     : Mode
  deriving DecidableEq, Repr

/-- One row of the table of R58. -/
structure OpcodeRow where
  opcode   : Byte
  mnemonic : Mnemonic
  mode     : Mode
  deriving DecidableEq, Repr

/-- An instruction with its operand bytes as R54 names them: `b` for format F2, `lo` and `hi` for format F3. -/
inductive Instr where
  | ldaImm  (b : Byte)
  | ldaZp   (b : Byte)
  | ldaZpX  (b : Byte)
  | ldaAbs  (lo hi : Byte)
  | ldaAbsX (lo hi : Byte)
  | ldaAbsY (lo hi : Byte)
  | ldaIndX (b : Byte)
  | ldaIndY (b : Byte)
  | ldxImm  (b : Byte)
  | ldxZp   (b : Byte)
  | ldxZpY  (b : Byte)
  | ldxAbs  (lo hi : Byte)
  | ldxAbsY (lo hi : Byte)
  | ldyImm  (b : Byte)
  | ldyZp   (b : Byte)
  | ldyZpX  (b : Byte)
  | ldyAbs  (lo hi : Byte)
  | ldyAbsX (lo hi : Byte)
  | staZp   (b : Byte)
  | staZpX  (b : Byte)
  | staAbs  (lo hi : Byte)
  | staAbsX (lo hi : Byte)
  | staAbsY (lo hi : Byte)
  | staIndX (b : Byte)
  | staIndY (b : Byte)
  | stxZp   (b : Byte)
  | stxZpY  (b : Byte)
  | stxAbs  (lo hi : Byte)
  | styZp   (b : Byte)
  | styZpX  (b : Byte)
  | styAbs  (lo hi : Byte)
  /-- Any opcode byte outside the table's 31: one byte long, no operand (R60, R62). -/
  | unimplemented (opcode : Byte)
  deriving DecidableEq, Repr

/-- How an instruction is completed from its opcode byte: by no, one or two operand bytes (formats F1, F2, F3, R54). -/
inductive Shape where
  | f1 (i : Instr)
  | f2 (make : Byte → Instr)
  | f3 (make : Byte → Byte → Instr)

/-- Why a byte string is no instruction: the decoder rejects by these names. -/
inductive DecodeError where
  /-- The string is empty. -/
  | noOpcode
  /-- The opcode needs more operand bytes than the string holds (R53). -/
  | missingOperand (opcode : Byte)
  /-- The table pairs an implemented mnemonic with a mode outside its legal subset (R59, R156).
  The hardware's table holds no such entry. -/
  | illegalMode (opcode : Byte)
  deriving DecidableEq, Repr

end Sys2Proof
end

