-- ==== Sys2Proof/Machine/State.lean ====
section
/-! DEFINITION. The state of the core and of its reference bus, the faults, and the launch (10_state.md, 60_exceptions.md,
70_reset_and_hazards.md). -/

namespace Sys2Proof.Machine

/-- A bus's own error value, carried unchanged (R158). The spec gives it no layout (N17): a number names it (log entry 7). -/
abbrev BusInfo := Nat

/-- The four faults of R154, each with its record. A step that raises one answers a next state whose loop is
`faulted`; a step from there answers this fault as the host's outcome (R151, R163; log entry 3). -/
inductive Fault where
  /-- Raised by a step whose opcode byte has no executor (R155); `pc` is the opcode's address. Safe: the spec stops too. -/
  | unimplementedOpcode (opcode : Byte) (pc : Word)
  /-- Raised by a step whose table entry has a mode outside the mnemonic's legal subset (R156), so only by `stepOn` with
  another table. Safe: the spec stops too. -/
  | invalidAddressingMode (mnemonic : Mnemonic) (mode : Mode) (opcode : Byte) (pc : Word)
  /-- Raised by the resolver asked for the address of Accumulator or Immediate (R157), so only by a direct call of it.
  Safe: the spec stops too. -/
  | wrongOperandForm (mode : Mode) (form : OperandForm) (opcode : Byte) (pc : Word)
  /-- Raised by a bus access that reports an error (R158), so only by `stepOn` with a bus that reports one. Safe: the
  spec stops too. -/
  | busError (info : BusInfo)
  deriving DecidableEq, Repr

/-- Reasons for which the model has no meaning. -/
inductive Refusal where
  /-- Raised by an arm of `exec` that has no meaning yet; no arm is left. Safe. -/
  | notModelled (mnemonic : String)
  deriving DecidableEq, Repr

/-- The loop state (R31). -/
inductive Loop where
  | running
  | halted
  | faulted (f : Fault)
  deriving DecidableEq, Repr

/-- The result of a step (R138). `continued` is the spec's Continue. -/
inductive StepResult where
  | continued (cycles : Nat)
  | halt
  | error (f : Fault)
  deriving DecidableEq, Repr

/-- The processor state: the register file and the loop state (10_state.md). -/
structure Cpu where
  /-- The accumulator A (R13). -/
  a    : Byte
  /-- The index register X (R13). -/
  x    : Byte
  /-- The index register Y (R13). -/
  y    : Byte
  /-- The status byte P, bits 7 to 0: N V U B D I Z C (R18). -/
  p    : Byte
  /-- The stack pointer SP (R28). -/
  sp   : Byte
  /-- The program counter PC (R15). -/
  pc   : Word
  /-- The loop state (R31). -/
  loop : Loop
  deriving DecidableEq, Repr

/-- The processor state together with the state of the reference bus (R37, R38). -/
structure State where
  cpu : Cpu
  mem : Memory
  deriving DecidableEq, Repr

/-- The launch of R173: every component a free input, the loop Running (R175). -/
def State.launch (a x y p sp : Byte) (pc : Word) (mem : Memory) : State :=
  { cpu := { a := a, x := x, y := y, p := p, sp := sp, pc := pc, loop := .running }, mem := mem }

/-- The launch at the values of log entries 1 and 2: the spec defines no reset and leaves every register and every byte
free (R34, R172, R174). -/
def State.reset : State := State.launch 0x00 0x00 0x00 0x00 0x00 0x0000 []

end Sys2Proof.Machine
end

