-- ==== Sys2Proof/Config.lean ====
section
/-! DEFINITION. The implementation parameters of 00_scope.md R5: what an implementation fixes and what stays OPEN.
The hardware's opcode table is in Decode.lean; its bus is in Machine/Bus.lean. -/

namespace Sys2Proof

/-- The parameters of the loop of R139: the opcode table, the zero-page pointer wrap, the placeholder cycle count (R5). -/
structure Params where
  /-- OPCODE_TABLE: total and immutable (R58). -/
  opcodeTable : Byte → Descriptor
  /-- ZP_PTR_WRAP: whether a pointer at 0xFF takes its high byte from 0x0000 (true) or from 0x0100 (false) (R69). -/
  zpPtrWrap   : Bool
  /-- STEP_CYCLES: the count a completed step returns (R145). -/
  stepCycles  : Nat

/-- ZP_PTR_WRAP of this hardware: true (R5, R69; the spec's decision D2, log entry 8). -/
def Config.zpPtrWrap : Bool := true

/-- STACK_PAGE: 0x01 (R5, R28; from general knowledge, D12, log entry 15). No rule reads it. -/
def Config.stackPage : Byte := 0x01#8

/-- STEP_CYCLES of this hardware: OPEN, so a constant without a body (R145, D10, log entry 4). -/
opaque Config.stepCycles : Nat

end Sys2Proof
end

