-- ==== Sys2Proof/Decode.lean ====
section
/-! DEFINITION. The opcode table, the decoder and the encoder (30_encoding.md). -/

namespace Sys2Proof

/-! ### The opcode table (R58) -/

/-- The load rows of the table of R58. -/
def loadRows : List OpcodeRow :=
  [⟨0xA9#8, .lda, .immediate⟩, ⟨0xA5#8, .lda, .zeroPage⟩,  ⟨0xB5#8, .lda, .zeroPageX⟩,
   ⟨0xAD#8, .lda, .absolute⟩,  ⟨0xBD#8, .lda, .absoluteX⟩, ⟨0xB9#8, .lda, .absoluteY⟩,
   ⟨0xA1#8, .lda, .indirectX⟩, ⟨0xB1#8, .lda, .indirectY⟩,
   ⟨0xA2#8, .ldx, .immediate⟩, ⟨0xA6#8, .ldx, .zeroPage⟩,  ⟨0xB6#8, .ldx, .zeroPageY⟩,
   ⟨0xAE#8, .ldx, .absolute⟩,  ⟨0xBE#8, .ldx, .absoluteY⟩,
   ⟨0xA0#8, .ldy, .immediate⟩, ⟨0xA4#8, .ldy, .zeroPage⟩,  ⟨0xB4#8, .ldy, .zeroPageX⟩,
   ⟨0xAC#8, .ldy, .absolute⟩,  ⟨0xBC#8, .ldy, .absoluteX⟩]

/-- The store rows of the table of R58. -/
def storeRows : List OpcodeRow :=
  [⟨0x85#8, .sta, .zeroPage⟩,  ⟨0x95#8, .sta, .zeroPageX⟩,
   ⟨0x8D#8, .sta, .absolute⟩,  ⟨0x9D#8, .sta, .absoluteX⟩, ⟨0x99#8, .sta, .absoluteY⟩,
   ⟨0x81#8, .sta, .indirectX⟩, ⟨0x91#8, .sta, .indirectY⟩,
   ⟨0x86#8, .stx, .zeroPage⟩,  ⟨0x96#8, .stx, .zeroPageY⟩, ⟨0x8E#8, .stx, .absolute⟩,
   ⟨0x84#8, .sty, .zeroPage⟩,  ⟨0x94#8, .sty, .zeroPageX⟩, ⟨0x8C#8, .sty, .absolute⟩]

/-- The 31 implemented opcodes (R58). -/
def opcodeRows : List OpcodeRow := loadRows ++ storeRows

/-- OPCODE_TABLE of this hardware: total, the bytes outside the 31 rows map to the explicit unimplemented entry (R58, R60). -/
def opcodeTable (op : Byte) : Descriptor :=
  match opcodeRows.find? (fun r => r.opcode == op) with
  | some r => ⟨r.mnemonic, r.mode⟩
  | none   => ⟨.unimplemented, .unimplemented⟩

/-- Whether the opcode byte is one of the 31 implemented ones (R58, R61). -/
def implemented (op : Byte) : Bool := (opcodeRows.find? (fun r => r.opcode == op)).isSome

/-- The parameters of this hardware (R5). -/
def hardware : Params := ⟨opcodeTable, Config.zpPtrWrap, Config.stepCycles⟩

/-- `len(m)`, the number of operand bytes; none for Unimplemented, 2 from general knowledge for Indirect (R56). -/
def Mode.len : Mode → Option Nat
  | .accumulator | .implied => some 0
  | .immediate | .zeroPage | .zeroPageX | .zeroPageY | .relative | .indirectX | .indirectY => some 1
  | .absolute | .absoluteX | .absoluteY | .indirect => some 2
  | .unimplemented => none

/-- Whether the mnemonic has an executor (R142). -/
def Mnemonic.hasExecutor : Mnemonic → Bool
  | .lda | .ldx | .ldy | .sta | .stx | .sty => true
  | .unimplemented => false

/-- The legal modes of each mnemonic (R59). -/
def legalModes : Mnemonic → List Mode
  | .lda => [.immediate, .zeroPage, .zeroPageX, .absolute, .absoluteX, .absoluteY, .indirectX, .indirectY]
  | .ldx => [.immediate, .zeroPage, .zeroPageY, .absolute, .absoluteY]
  | .ldy => [.immediate, .zeroPage, .zeroPageX, .absolute, .absoluteX]
  | .sta => [.zeroPage, .zeroPageX, .absolute, .absoluteX, .absoluteY, .indirectX, .indirectY]
  | .stx => [.zeroPage, .zeroPageY, .absolute]
  | .sty => [.zeroPage, .zeroPageX, .absolute]
  | .unimplemented => []

/-- `Legal(mn)` of R139 as a test. -/
def legal (mn : Mnemonic) (m : Mode) : Bool := decide (m ∈ legalModes mn)

/-! ### The decoder -/

/-- The instruction a descriptor stands for, by its format; none where the mode is not legal for the mnemonic (R54, R59). -/
def shapeOf (op : Byte) (d : Descriptor) : Option Shape :=
  match d.mnemonic, d.mode with
  | .lda, .immediate => some (.f2 .ldaImm)
  | .lda, .zeroPage  => some (.f2 .ldaZp)
  | .lda, .zeroPageX => some (.f2 .ldaZpX)
  | .lda, .absolute  => some (.f3 .ldaAbs)
  | .lda, .absoluteX => some (.f3 .ldaAbsX)
  | .lda, .absoluteY => some (.f3 .ldaAbsY)
  | .lda, .indirectX => some (.f2 .ldaIndX)
  | .lda, .indirectY => some (.f2 .ldaIndY)
  | .ldx, .immediate => some (.f2 .ldxImm)
  | .ldx, .zeroPage  => some (.f2 .ldxZp)
  | .ldx, .zeroPageY => some (.f2 .ldxZpY)
  | .ldx, .absolute  => some (.f3 .ldxAbs)
  | .ldx, .absoluteY => some (.f3 .ldxAbsY)
  | .ldy, .immediate => some (.f2 .ldyImm)
  | .ldy, .zeroPage  => some (.f2 .ldyZp)
  | .ldy, .zeroPageX => some (.f2 .ldyZpX)
  | .ldy, .absolute  => some (.f3 .ldyAbs)
  | .ldy, .absoluteX => some (.f3 .ldyAbsX)
  | .sta, .zeroPage  => some (.f2 .staZp)
  | .sta, .zeroPageX => some (.f2 .staZpX)
  | .sta, .absolute  => some (.f3 .staAbs)
  | .sta, .absoluteX => some (.f3 .staAbsX)
  | .sta, .absoluteY => some (.f3 .staAbsY)
  | .sta, .indirectX => some (.f2 .staIndX)
  | .sta, .indirectY => some (.f2 .staIndY)
  | .stx, .zeroPage  => some (.f2 .stxZp)
  | .stx, .zeroPageY => some (.f2 .stxZpY)
  | .stx, .absolute  => some (.f3 .stxAbs)
  | .sty, .zeroPage  => some (.f2 .styZp)
  | .sty, .zeroPageX => some (.f2 .styZpX)
  | .sty, .absolute  => some (.f3 .styAbs)
  | .unimplemented, _ => some (.f1 (.unimplemented op))
  | _, _ => none

/-- The decoder: one table lookup on the whole opcode byte, then the operand bytes in order (R53, R55, R61, R62).
It answers the instruction and the bytes after it. -/
def decode : List Byte → Except DecodeError (Instr × List Byte)
  | [] => .error .noOpcode
  | op :: rest =>
    match shapeOf op (opcodeTable op) with
    | none => .error (.illegalMode op)
    | some (.f1 i) => .ok (i, rest)
    | some (.f2 make) =>
      match rest with
      | b :: rest => .ok (make b, rest)
      | [] => .error (.missingOperand op)
    | some (.f3 make) =>
      match rest with
      | lo :: hi :: rest => .ok (make lo hi, rest)
      | _ => .error (.missingOperand op)

/-! ### The encoder -/

/-- The bytes of an instruction, from the Encoding line of its own rule (R102 to R119, R125 to R137). -/
def encode : Instr → List Byte
  | .ldaImm b      => [0xA9#8, b]
  | .ldaZp b       => [0xA5#8, b]
  | .ldaZpX b      => [0xB5#8, b]
  | .ldaAbs lo hi  => [0xAD#8, lo, hi]
  | .ldaAbsX lo hi => [0xBD#8, lo, hi]
  | .ldaAbsY lo hi => [0xB9#8, lo, hi]
  | .ldaIndX b     => [0xA1#8, b]
  | .ldaIndY b     => [0xB1#8, b]
  | .ldxImm b      => [0xA2#8, b]
  | .ldxZp b       => [0xA6#8, b]
  | .ldxZpY b      => [0xB6#8, b]
  | .ldxAbs lo hi  => [0xAE#8, lo, hi]
  | .ldxAbsY lo hi => [0xBE#8, lo, hi]
  | .ldyImm b      => [0xA0#8, b]
  | .ldyZp b       => [0xA4#8, b]
  | .ldyZpX b      => [0xB4#8, b]
  | .ldyAbs lo hi  => [0xAC#8, lo, hi]
  | .ldyAbsX lo hi => [0xBC#8, lo, hi]
  | .staZp b       => [0x85#8, b]
  | .staZpX b      => [0x95#8, b]
  | .staAbs lo hi  => [0x8D#8, lo, hi]
  | .staAbsX lo hi => [0x9D#8, lo, hi]
  | .staAbsY lo hi => [0x99#8, lo, hi]
  | .staIndX b     => [0x81#8, b]
  | .staIndY b     => [0x91#8, b]
  | .stxZp b       => [0x86#8, b]
  | .stxZpY b      => [0x96#8, b]
  | .stxAbs lo hi  => [0x8E#8, lo, hi]
  | .styZp b       => [0x84#8, b]
  | .styZpX b      => [0x94#8, b]
  | .styAbs lo hi  => [0x8C#8, lo, hi]
  | .unimplemented op => [op]

/-! ### The descriptor of an instruction -/

/-- The mnemonic of the instruction's row (R58). -/
def Instr.mnemonic : Instr → Mnemonic
  | .ldaImm _ | .ldaZp _ | .ldaZpX _ | .ldaAbs _ _ | .ldaAbsX _ _ | .ldaAbsY _ _ | .ldaIndX _ | .ldaIndY _ => .lda
  | .ldxImm _ | .ldxZp _ | .ldxZpY _ | .ldxAbs _ _ | .ldxAbsY _ _ => .ldx
  | .ldyImm _ | .ldyZp _ | .ldyZpX _ | .ldyAbs _ _ | .ldyAbsX _ _ => .ldy
  | .staZp _ | .staZpX _ | .staAbs _ _ | .staAbsX _ _ | .staAbsY _ _ | .staIndX _ | .staIndY _ => .sta
  | .stxZp _ | .stxZpY _ | .stxAbs _ _ => .stx
  | .styZp _ | .styZpX _ | .styAbs _ _ => .sty
  | .unimplemented _ => .unimplemented

/-- The addressing mode of the instruction's row (R58). -/
def Instr.mode : Instr → Mode
  | .ldaImm _ | .ldxImm _ | .ldyImm _ => .immediate
  | .ldaZp _ | .ldxZp _ | .ldyZp _ | .staZp _ | .stxZp _ | .styZp _ => .zeroPage
  | .ldaZpX _ | .ldyZpX _ | .staZpX _ | .styZpX _ => .zeroPageX
  | .ldxZpY _ | .stxZpY _ => .zeroPageY
  | .ldaAbs _ _ | .ldxAbs _ _ | .ldyAbs _ _ | .staAbs _ _ | .stxAbs _ _ | .styAbs _ _ => .absolute
  | .ldaAbsX _ _ | .ldyAbsX _ _ | .staAbsX _ _ => .absoluteX
  | .ldaAbsY _ _ | .ldxAbsY _ _ | .staAbsY _ _ => .absoluteY
  | .ldaIndX _ | .staIndX _ => .indirectX
  | .ldaIndY _ | .staIndY _ => .indirectY
  | .unimplemented _ => .unimplemented

/-! ### Words numbered as spec/opcode_table.json numbers them -/

/-- The three bytes of a table word, bit 0 first, every bit from `nbits` up cleared (R54: F3 is `hi : lo : opcode`). -/
def wordBytes (nbits w : Nat) : List Byte :=
  let v := w % 2 ^ nbits
  [BitVec.ofNat 8 v, BitVec.ofNat 8 (v / 256), BitVec.ofNat 8 (v / 65536)]

/-- The instruction the decoder reads from a table word. -/
def decodeTableWord (nbits w : Nat) : Option Instr :=
  match decode (wordBytes nbits w) with
  | .ok (i, _) => some i
  | .error _   => none

/-! ### The symbolic names (R63) -/

/-- The source's spelling of a mnemonic. -/
def Mnemonic.name : Mnemonic → String
  | .lda => "LDA" | .ldx => "LDX" | .ldy => "LDY"
  | .sta => "STA" | .stx => "STX" | .sty => "STY"
  | .unimplemented => "UNIMPLEMENTED"

/-- The mode's part of the symbolic name; none for a mode R63 does not list. -/
def Mode.suffix : Mode → Option String
  | .immediate => some "IMM" | .zeroPage => some "ZP" | .zeroPageX => some "ZPX" | .zeroPageY => some "ZPY"
  | .absolute => some "ABS" | .absoluteX => some "ABSX" | .absoluteY => some "ABSY"
  | .indirectX => some "INDX" | .indirectY => some "INDY"
  | .accumulator | .implied | .relative | .indirect | .unimplemented => none

/-- The symbolic name of an opcode, `<MNEMONIC>_<MODE>` (R63). -/
def symbolicName (op : Byte) : Option String :=
  (opcodeTable op).mode.suffix.map fun m => (opcodeTable op).mnemonic.name ++ "_" ++ m

end Sys2Proof
end

