-- ==== Sys2Proof/WellFormed.lean ====
section
/-! DEFINITION. The one check on an instruction as syntax: operand bytes are never checked (R61), and an unimplemented
opcode is one the table does not implement (R60). -/

namespace Sys2Proof

/-- Whether the instruction is one that some byte string encodes. -/
def Instr.wf : Instr → Bool
  | .ldaImm _ | .ldaZp _ | .ldaZpX _ | .ldaAbs _ _ | .ldaAbsX _ _ | .ldaAbsY _ _ | .ldaIndX _ | .ldaIndY _ => true
  | .ldxImm _ | .ldxZp _ | .ldxZpY _ | .ldxAbs _ _ | .ldxAbsY _ _ => true
  | .ldyImm _ | .ldyZp _ | .ldyZpX _ | .ldyAbs _ _ | .ldyAbsX _ _ => true
  | .staZp _ | .staZpX _ | .staAbs _ _ | .staAbsX _ _ | .staAbsY _ _ | .staIndX _ | .staIndY _ => true
  | .stxZp _ | .stxZpY _ | .stxAbs _ _ => true
  | .styZp _ | .styZpX _ | .styAbs _ _ => true
  | .unimplemented op => !implemented op

end Sys2Proof
end

