-- ==== Sys2Proof/Machine/Ops.lean ====
section
/-! DEFINITION. The named operations on the state: registers, memory bytes, the PC sequencer, fetching an instruction,
taking a fault, and what a step does in a loop state that is not Running. -/

namespace Sys2Proof.Machine

/-- Reading a general register (R8). -/
def Cpu.get (c : Cpu) : Reg → Byte
  | .a => c.a
  | .x => c.x
  | .y => c.y

/-- Writing a general register (R8). None aliases another or a bit of P, SP or PC (R13). -/
def Cpu.set (c : Cpu) (r : Reg) (v : Byte) : Cpu :=
  match r with
  | .a => { c with a := v }
  | .x => { c with x := v }
  | .y => { c with y := v }

/-- The effect of loading `v` into `r` on the processor state: `R <- v; UpdateZN(v)` (R97). -/
def Cpu.load (c : Cpu) (r : Reg) (v : Byte) : Cpu :=
  { c.set r v with p := updateZN v c.p }

/-- Consuming `n` instruction bytes: PC is 16 bits and wraps from 0xFFFF to 0x0000 (R16). -/
def Cpu.advance (c : Cpu) (n : Nat) : Cpu := { c with pc := c.pc + BitVec.ofNat 16 n }

/-- The byte at an address (R38). -/
def State.readByte (s : State) (a : Word) : Byte := Memory.read s.mem a.toNat

/-- The state with one byte replaced (R38). -/
def State.writeByte (s : State) (a : Word) (v : Byte) : State :=
  { s with mem := Memory.write s.mem a.toNat v }

/-- Taking a fault: the loop becomes Faulted(f); A, X, Y, P, SP, PC and memory keep the values they have at the start of
the step, and control goes to no vector (R160, R161, R162). There is no return from a fault (R163). -/
def raiseFault (f : Fault) (s : State) : Host.Outcome State Fault Refusal :=
  .next { s with cpu := { s.cpu with loop := .faulted f } }

/-- A step in Halted changes nothing (R150). -/
def haltedStep (s : State) : Host.Outcome State Fault Refusal := .next s

/-- A faulted state takes no further step (R151, R163): the machine has stopped with the fault it recorded. -/
def faultedStep (f : Fault) : Host.Outcome State Fault Refusal := .fault f

/-- The instruction at PC: one opcode byte, one table lookup, then the operand bytes the opcode needs and no others
(R53, R140 to R143). An opcode byte the table does not implement is the unimplemented instruction. The
last arm, an entry with a mode outside its mnemonic's legal subset, is never met: this table has none (shape_cases). -/
def fetchInstr (s : State) : Instr :=
  let p := s.cpu.pc
  let op := s.readByte p
  match shapeOf op (opcodeTable op) with
  | some (.f1 i)    => i
  | some (.f2 make) => make (s.readByte (p + 1#16))
  | some (.f3 make) => make (s.readByte (p + 1#16)) (s.readByte (p + 2#16))
  | none            => .unimplemented op

/-- The three bytes of a table word stored at PC, and the loop Running so that the next step fetches them: the loader of
R174 and R176 (log entry 5). -/
def placeWord (s : State) (nbits w : Nat) : State :=
  let v := w % 2 ^ nbits
  let p := s.cpu.pc
  let s := s.writeByte p (BitVec.ofNat 8 v)
  let s := s.writeByte (p + 1#16) (BitVec.ofNat 8 (v / 256))
  let s := s.writeByte (p + 2#16) (BitVec.ofNat 8 (v / 65536))
  { s with cpu := { s.cpu with loop := .running } }

end Sys2Proof.Machine
end

