-- ==== Sys2Proof/Machine/Operands.lean ====
section
/-! DEFINITION. The operand forms: effective addresses and values (30_encoding.md R57, 40_addressing.md R69, R72 to R80, R84). -/

namespace Sys2Proof.Machine

/-! ### Address arithmetic (R95) -/

/-- ZeroPage: `zext_16(b)` (R73). -/
def zpAddr (b : Byte) : Word := zext16 b

/-- ZeroPageX and ZeroPageY: `zext_16(b +8 index)`, always in page 0 (R74, R75). -/
def zpIndexedAddr (b index : Byte) : Word := zext16 (b + index)

/-- Absolute: `hi:lo` (R76). -/
def absAddr (lo hi : Byte) : Word := hilo lo hi

/-- AbsoluteX, AbsoluteY, and the last step of IndirectY: `base +16 zext_16(index)` (R77, R78, R80). -/
def indexedAddr (base : Word) (index : Byte) : Word := base + zext16 index

/-- Where the high byte of the zero-page pointer at `p` lies, by ZP_PTR_WRAP (R69). -/
def pointerHighAddr (wrap : Bool) (p : Byte) : Word := if wrap then zext16 (p + 1#8) else zext16 p + 1#16

/-- `ReadZpPointer(p)`: low byte at p, high byte at the next address (R69). -/
def readZpPointer (wrap : Bool) (s : State) (p : Byte) : Word :=
  hilo (s.readByte (zext16 p)) (s.readByte (pointerHighAddr wrap p))

/-! ### Memory operands -/

/-- The eight memory modes with their operand bytes (R66). Immediate is the ninth mode in scope: its value is its byte (R72). -/
inductive MemOperand where
  | zeroPage  (b : Byte)
  | zeroPageX (b : Byte)
  | zeroPageY (b : Byte)
  | absolute  (lo hi : Byte)
  | absoluteX (lo hi : Byte)
  | absoluteY (lo hi : Byte)
  | indirectX (b : Byte)
  | indirectY (b : Byte)
  deriving DecidableEq, Repr

/-- The bytes of an instruction with this operand, its opcode included: `1 + len(m)` (R56, R62, R147). -/
def MemOperand.bytes : MemOperand → Nat
  | .zeroPage _ | .zeroPageX _ | .zeroPageY _ | .indirectX _ | .indirectY _ => 2
  | .absolute _ _ | .absoluteX _ _ | .absoluteY _ _ => 3

/-- The address form (R73 to R80). -/
def MemOperand.addr (o : MemOperand) (s : State) : Word :=
  match o with
  | .zeroPage b      => zpAddr b
  | .zeroPageX b     => zpIndexedAddr b s.cpu.x
  | .zeroPageY b     => zpIndexedAddr b s.cpu.y
  | .absolute lo hi  => absAddr lo hi
  | .absoluteX lo hi => indexedAddr (absAddr lo hi) s.cpu.x
  | .absoluteY lo hi => indexedAddr (absAddr lo hi) s.cpu.y
  | .indirectX b     => readZpPointer Config.zpPtrWrap s (b + s.cpu.x)
  | .indirectY b     => indexedAddr (readZpPointer Config.zpPtrWrap s b) s.cpu.y

/-- The value form: the byte at the effective address (R84). -/
def MemOperand.value (o : MemOperand) (s : State) : Byte := s.readByte (o.addr s)

end Sys2Proof.Machine
end

