-- ==== Sys2Proof/Machine/Load.lean ====
section
/-! DEFINITION. The load family: LDA, LDX, LDY (42_load.md). -/

namespace Sys2Proof.Machine

/-- `R <- v; UpdateZN(v)`, and PC past the instruction's `n` bytes (R97, R147). Memory is untouched (R98). -/
def loadByte (r : Reg) (v : Byte) (n : Nat) (s : State) : Host.Outcome State Fault Refusal :=
  .next { s with cpu := (s.cpu.load r v).advance n }

/-- A load whose operand is in memory: the value form of the mode (R84, R97). -/
def loadMem (r : Reg) (o : MemOperand) (s : State) : Host.Outcome State Fault Refusal :=
  loadByte r (o.value s) o.bytes s

/-- A load of the immediate byte: format F2, two bytes (R72, R97). -/
def loadImm (r : Reg) (b : Byte) (s : State) : Host.Outcome State Fault Refusal :=
  loadByte r b 2 s

/-- LDA Immediate (R102). -/
def execLdaImm (b : Byte) (s : State) : Host.Outcome State Fault Refusal :=
  loadImm .a b s

/-- LDA ZeroPage (R103). -/
def execLdaZp (b : Byte) (s : State) : Host.Outcome State Fault Refusal :=
  loadMem .a (.zeroPage b) s

/-- LDA ZeroPageX (R104). -/
def execLdaZpX (b : Byte) (s : State) : Host.Outcome State Fault Refusal :=
  loadMem .a (.zeroPageX b) s

/-- LDA Absolute (R105). -/
def execLdaAbs (lo hi : Byte) (s : State) : Host.Outcome State Fault Refusal :=
  loadMem .a (.absolute lo hi) s

/-- LDA AbsoluteX (R106). -/
def execLdaAbsX (lo hi : Byte) (s : State) : Host.Outcome State Fault Refusal :=
  loadMem .a (.absoluteX lo hi) s

/-- LDA AbsoluteY (R107). -/
def execLdaAbsY (lo hi : Byte) (s : State) : Host.Outcome State Fault Refusal :=
  loadMem .a (.absoluteY lo hi) s

/-- LDA IndirectX (R108). -/
def execLdaIndX (b : Byte) (s : State) : Host.Outcome State Fault Refusal :=
  loadMem .a (.indirectX b) s

/-- LDA IndirectY (R109). -/
def execLdaIndY (b : Byte) (s : State) : Host.Outcome State Fault Refusal :=
  loadMem .a (.indirectY b) s

/-- LDX Immediate (R110). -/
def execLdxImm (b : Byte) (s : State) : Host.Outcome State Fault Refusal :=
  loadImm .x b s

/-- LDX ZeroPage (R111). -/
def execLdxZp (b : Byte) (s : State) : Host.Outcome State Fault Refusal :=
  loadMem .x (.zeroPage b) s

/-- LDX ZeroPageY (R112). -/
def execLdxZpY (b : Byte) (s : State) : Host.Outcome State Fault Refusal :=
  loadMem .x (.zeroPageY b) s

/-- LDX Absolute (R113). -/
def execLdxAbs (lo hi : Byte) (s : State) : Host.Outcome State Fault Refusal :=
  loadMem .x (.absolute lo hi) s

/-- LDX AbsoluteY (R114). -/
def execLdxAbsY (lo hi : Byte) (s : State) : Host.Outcome State Fault Refusal :=
  loadMem .x (.absoluteY lo hi) s

/-- LDY Immediate (R115). -/
def execLdyImm (b : Byte) (s : State) : Host.Outcome State Fault Refusal :=
  loadImm .y b s

/-- LDY ZeroPage (R116). -/
def execLdyZp (b : Byte) (s : State) : Host.Outcome State Fault Refusal :=
  loadMem .y (.zeroPage b) s

/-- LDY ZeroPageX (R117). -/
def execLdyZpX (b : Byte) (s : State) : Host.Outcome State Fault Refusal :=
  loadMem .y (.zeroPageX b) s

/-- LDY Absolute (R118). -/
def execLdyAbs (lo hi : Byte) (s : State) : Host.Outcome State Fault Refusal :=
  loadMem .y (.absolute lo hi) s

/-- LDY AbsoluteX (R119). -/
def execLdyAbsX (lo hi : Byte) (s : State) : Host.Outcome State Fault Refusal :=
  loadMem .y (.absoluteX lo hi) s

end Sys2Proof.Machine
end

