-- ==== Sys2Proof/Machine/Store.lean ====
section
/-! DEFINITION. The store family: STA, STX, STY (43_store.md). -/

namespace Sys2Proof.Machine

/-- The address form of the mode, one write of R there, and PC past the instruction. No flag and no other register is
written, and the address is formed before the write (R120, R121, R147). -/
def storeMem (r : Reg) (o : MemOperand) (s : State) : Host.Outcome State Fault Refusal :=
  .next { s.writeByte (o.addr s) (s.cpu.get r) with cpu := s.cpu.advance o.bytes }

/-- STA ZeroPage (R125). -/
def execStaZp (b : Byte) (s : State) : Host.Outcome State Fault Refusal :=
  storeMem .a (.zeroPage b) s

/-- STA ZeroPageX (R126). -/
def execStaZpX (b : Byte) (s : State) : Host.Outcome State Fault Refusal :=
  storeMem .a (.zeroPageX b) s

/-- STA Absolute (R127). -/
def execStaAbs (lo hi : Byte) (s : State) : Host.Outcome State Fault Refusal :=
  storeMem .a (.absolute lo hi) s

/-- STA AbsoluteX (R128). -/
def execStaAbsX (lo hi : Byte) (s : State) : Host.Outcome State Fault Refusal :=
  storeMem .a (.absoluteX lo hi) s

/-- STA AbsoluteY (R129). -/
def execStaAbsY (lo hi : Byte) (s : State) : Host.Outcome State Fault Refusal :=
  storeMem .a (.absoluteY lo hi) s

/-- STA IndirectX (R130). -/
def execStaIndX (b : Byte) (s : State) : Host.Outcome State Fault Refusal :=
  storeMem .a (.indirectX b) s

/-- STA IndirectY (R131). -/
def execStaIndY (b : Byte) (s : State) : Host.Outcome State Fault Refusal :=
  storeMem .a (.indirectY b) s

/-- STX ZeroPage (R132). -/
def execStxZp (b : Byte) (s : State) : Host.Outcome State Fault Refusal :=
  storeMem .x (.zeroPage b) s

/-- STX ZeroPageY (R133). -/
def execStxZpY (b : Byte) (s : State) : Host.Outcome State Fault Refusal :=
  storeMem .x (.zeroPageY b) s

/-- STX Absolute (R134). -/
def execStxAbs (lo hi : Byte) (s : State) : Host.Outcome State Fault Refusal :=
  storeMem .x (.absolute lo hi) s

/-- STY ZeroPage (R135). -/
def execStyZp (b : Byte) (s : State) : Host.Outcome State Fault Refusal :=
  storeMem .y (.zeroPage b) s

/-- STY ZeroPageX (R136). -/
def execStyZpX (b : Byte) (s : State) : Host.Outcome State Fault Refusal :=
  storeMem .y (.zeroPageX b) s

/-- STY Absolute (R137). -/
def execStyAbs (lo hi : Byte) (s : State) : Host.Outcome State Fault Refusal :=
  storeMem .y (.absolute lo hi) s

end Sys2Proof.Machine
end

