-- ==== Sys2Proof/Machine/Unimplemented.lean ====
section
/-! DEFINITION. The opcode bytes without an executor (30_encoding.md R60, 44_execution_loop.md R142). -/

namespace Sys2Proof.Machine

/-- An unimplemented opcode takes the fault UnimplementedOpcode with the opcode byte and its address (R142, R155). -/
def execUnimplemented (opcode : Byte) (s : State) : Host.Outcome State Fault Refusal :=
  raiseFault (.unimplementedOpcode opcode s.cpu.pc) s

end Sys2Proof.Machine
end

