-- ==== Sys2Proof/Machine/Step.lean ====
section
/-! DEFINITION. One step of the loop (44_execution_loop.md R138, R139, R150, R151). -/

namespace Sys2Proof.Machine

/-- One step: in Running, the instruction at PC is fetched, decoded and executed; Halted and Faulted are left as they are.
`exec` receives the state with PC at the opcode byte and moves PC past the instruction itself. -/
def step (s : State) : Host.Outcome State Fault Refusal :=
  match s.cpu.loop with
  | .running   => exec (fetchInstr s) s
  | .halted    => haltedStep s
  | .faulted f => faultedStep f

/-- The state with the table word's instruction stored where the next step fetches it. -/
def State.withFetchWord (s : State) (nbits w : Nat) : State := placeWord s nbits w

end Sys2Proof.Machine
end

