-- ==== Sys2Proof/Machine/Bus.lean ====
section
/-! DEFINITION. The bus the core drives, as the parameter BUS: any bus, the reference bus, and a bus that also records
the accesses it is asked for (20_memory.md R35, R38, R39). -/

namespace Sys2Proof.Machine

/-- A bus over a state type `S` (R35). A read or a write may change `S` in any way and may report an error; the third
argument of `read` is `side_effect_free`. -/
structure Bus (S : Type) where
  read  : S → Word → Bool → Except BusInfo Byte × S
  write : S → Word → Byte → Except BusInfo Unit × S

/-- The reference bus: plain storage, no error, reads change nothing (R38). -/
def referenceBus : Bus Memory where
  read m a _  := (.ok (Memory.read m a.toNat), m)
  write m a v := (.ok (), Memory.write m a.toNat v)

/-- One bus access. -/
inductive Access where
  | read  (addr : Word) (sideEffectFree : Bool)
  | write (addr : Word) (value : Byte)
  deriving DecidableEq, Repr

/-- Whether the access is a read. -/
def Access.isRead : Access → Bool
  | .read _ _  => true
  | .write _ _ => false

/-- The same bus, recording every access in order. -/
def tracedBus {S : Type} (bus : Bus S) : Bus (S × List Access) where
  read st a free :=
    let (r, s) := bus.read st.1 a free
    (r, s, st.2 ++ [.read a free])
  write st a v :=
    let (r, s) := bus.write st.1 a v
    (r, s, st.2 ++ [.write a v])

/-- An inspection read of the reference bus, as a debugger makes it between steps (R40, R170). -/
def State.inspect (s : State) (a : Word) : Byte :=
  match (referenceBus.read s.mem a true).1 with
  | .ok v    => v
  | .error _ => Memory.unlisted

end Sys2Proof.Machine
end

