-- ==== Sys2Proof/Machine/Loop.lean ====
section
/-! DEFINITION. The fetch-decode-execute loop, the resolver and the two families as the spec's pseudocode has them, for
any opcode table, either ZP_PTR_WRAP and any bus (40_addressing.md, 42_load.md R97, 43_store.md R120, 44_execution_loop.md
R138, R139, 60_exceptions.md). `step` is this loop at the hardware's parameters on the reference bus. -/

namespace Sys2Proof.Machine

/-! ### Staged computations (00_scope.md R8, R9, R10) -/

/-- A part of a step: from the staged registers and the bus state, a fault, or a value with the registers after it. The
bus state goes on through a fault: accesses already made are not undone (R162). -/
abbrev Staged (S α : Type) := Cpu → S → Except Fault (α × Cpu) × S

/-- A value, nothing changed. -/
def stagedPure {S α : Type} (v : α) : Staged S α := fun c s => (.ok (v, c), s)

/-- One part after another; a fault in the first ends the step (R10). -/
def stagedBind {S α β : Type} (m : Staged S α) (k : α → Staged S β) : Staged S β := fun c s =>
  match m c s with
  | (.ok (v, c'), s')  => k v c' s'
  | (.error f, s')     => (.error f, s')

/-- `raise f` (R10). -/
def stagedRaise {S α : Type} (f : Fault) : Staged S α := fun _ s => (.error f, s)

/-- The staged registers. -/
def stagedCpu {S : Type} : Staged S Cpu := fun c s => (.ok (c, c), s)

/-- A staged register write (R8). -/
def stagedModify {S : Type} (g : Cpu → Cpu) : Staged S Unit := fun c s => (.ok ((), g c), s)

/-- `MemRead(a, 1)`: one bus read with `side_effect_free = false`, or the bus's error unchanged (R9, R40, R158). -/
def memRead {S : Type} (bus : Bus S) (a : Word) : Staged S Byte := fun c s =>
  match bus.read s a false with
  | (.ok v, s')    => (.ok (v, c), s')
  | (.error e, s') => (.error (.busError e), s')

/-- `MemWrite(a, 1, v)`: one bus write, or the bus's error unchanged (R9, R158). -/
def memWrite {S : Type} (bus : Bus S) (a : Word) (v : Byte) : Staged S Unit := fun c s =>
  match bus.write s a v with
  | (.ok _, s')    => (.ok ((), c), s')
  | (.error e, s') => (.error (.busError e), s')

/-! ### The resolver (40_addressing.md) -/

/-- `FetchOperandByte()` (R68). -/
def fetchOperandByte {S : Type} (bus : Bus S) : Staged S Byte :=
  stagedBind stagedCpu fun c =>
  stagedBind (memRead bus c.pc) fun b =>
  stagedBind (stagedModify fun c => c.advance 1) fun _ =>
  stagedPure b

/-- `ReadZpPointer(p)` (R69). -/
def readPointer {S : Type} (wrap : Bool) (bus : Bus S) (p : Byte) : Staged S Word :=
  stagedBind (memRead bus (zext16 p)) fun lo =>
  stagedBind (memRead bus (pointerHighAddr wrap p)) fun hi =>
  stagedPure (hilo lo hi)

/-- What a fault record names beside the mode: the mnemonic, the opcode byte and its address (R154). -/
structure Site where
  mnemonic : Mnemonic
  opcode   : Byte
  pc       : Word
  deriving DecidableEq, Repr

/-- An absolute address from two operand bytes, low byte first (R76). -/
def fetchAbsolute {S : Type} (bus : Bus S) : Staged S Word :=
  stagedBind (fetchOperandByte bus) fun lo =>
  stagedBind (fetchOperandByte bus) fun hi =>
  stagedPure (absAddr lo hi)

/-- `ResolveAddress(m)` (R66, R73 to R80, R85). Implied/Zero, Relative, Indirect and Unimplemented have no resolution
rule and dispatch never resolves them (R71, R81 to R83): asked for one directly, this answers InvalidAddressingMode
(DESIGN CHOICE, safe, log entry 12). -/
def resolveAddress {S : Type} (wrap : Bool) (bus : Bus S) (site : Site) (m : Mode) : Staged S Word :=
  match m with
  | .zeroPage =>
    stagedBind (fetchOperandByte bus) fun b =>
    stagedPure (zpAddr b)
  | .zeroPageX =>
    stagedBind (fetchOperandByte bus) fun b =>
    stagedBind stagedCpu fun c =>
    stagedPure (zpIndexedAddr b c.x)
  | .zeroPageY =>
    stagedBind (fetchOperandByte bus) fun b =>
    stagedBind stagedCpu fun c =>
    stagedPure (zpIndexedAddr b c.y)
  | .absolute => fetchAbsolute bus
  | .absoluteX =>
    stagedBind (fetchAbsolute bus) fun base =>
    stagedBind stagedCpu fun c =>
    stagedPure (indexedAddr base c.x)
  | .absoluteY =>
    stagedBind (fetchAbsolute bus) fun base =>
    stagedBind stagedCpu fun c =>
    stagedPure (indexedAddr base c.y)
  | .indirectX =>
    stagedBind (fetchOperandByte bus) fun b =>
    stagedBind stagedCpu fun c =>
    readPointer wrap bus (b + c.x)
  | .indirectY =>
    stagedBind (fetchOperandByte bus) fun b =>
    stagedBind (readPointer wrap bus b) fun base =>
    stagedBind stagedCpu fun c =>
    stagedPure (indexedAddr base c.y)
  | .accumulator | .immediate =>
    stagedRaise (.wrongOperandForm m .address site.opcode site.pc)
  | .implied | .relative | .indirect | .unimplemented =>
    stagedRaise (.invalidAddressingMode site.mnemonic m site.opcode site.pc)

/-- `ResolveValue(m)` (R66, R70, R72, R84). -/
def resolveValue {S : Type} (wrap : Bool) (bus : Bus S) (site : Site) (m : Mode) : Staged S Byte :=
  match m with
  | .accumulator =>
    stagedBind stagedCpu fun c =>
    stagedPure c.a
  | .immediate => fetchOperandByte bus
  | .zeroPage | .zeroPageX | .zeroPageY | .absolute | .absoluteX | .absoluteY | .indirectX | .indirectY
  | .implied | .relative | .indirect | .unimplemented =>
    stagedBind (resolveAddress wrap bus site m) fun ea =>
    memRead bus ea

/-! ### The two families -/

/-- `ExecuteLoad(R, m)` (R97). -/
def executeLoad {S : Type} (wrap : Bool) (bus : Bus S) (site : Site) (r : Reg) (m : Mode) : Staged S Unit :=
  stagedBind (resolveValue wrap bus site m) fun v =>
  stagedModify fun c => c.load r v

/-- `ExecuteStore(R, m)` (R120). -/
def executeStore {S : Type} (wrap : Bool) (bus : Bus S) (site : Site) (r : Reg) (m : Mode) : Staged S Unit :=
  stagedBind (resolveAddress wrap bus site m) fun ea =>
  stagedBind stagedCpu fun c =>
  memWrite bus ea (c.get r)

/-! ### The step -/

/-- The choice over the six mnemonics (R144); a mnemonic without an executor is UnimplementedOpcode (R142). -/
def dispatch {S : Type} (wrap : Bool) (bus : Bus S) (site : Site) (m : Mode) : Staged S Unit :=
  match site.mnemonic with
  | .lda => executeLoad wrap bus site .a m
  | .ldx => executeLoad wrap bus site .x m
  | .ldy => executeLoad wrap bus site .y m
  | .sta => executeStore wrap bus site .a m
  | .stx => executeStore wrap bus site .x m
  | .sty => executeStore wrap bus site .y m
  | .unimplemented => stagedRaise (.unimplementedOpcode site.opcode site.pc)

/-- After the opcode byte `op` at `p` is fetched: the lookup, the two checks in their order, and dispatch (R139, R141 to
R144, R159). -/
def executeOpcode {S : Type} (params : Params) (bus : Bus S) (p : Word) (op : Byte) : Staged S Unit :=
  let d := params.opcodeTable op
  if d.mnemonic.hasExecutor = false then stagedRaise (.unimplementedOpcode op p)
  else if legal d.mnemonic d.mode = false then stagedRaise (.invalidAddressingMode d.mnemonic d.mode op p)
  else dispatch params.zpPtrWrap bus { mnemonic := d.mnemonic, opcode := op, pc := p } d.mode

/-- The body of `Step` in Running (R139): the opcode fetch and the PC advance come first (R140). -/
def runningStep {S : Type} (params : Params) (bus : Bus S) : Staged S Unit := fun c s =>
  (stagedBind (memRead bus c.pc) fun op =>
   stagedBind (stagedModify fun c => c.advance 1) fun _ =>
   executeOpcode params bus c.pc op) c s

/-- `Step` for any parameters and any bus (R138, R139). A fault commits nothing and leaves the loop Faulted (R160, R161);
a completed step commits the staged registers (R146) and returns the placeholder count (R145); Halted returns Halt
(R150); from Faulted there is no step (R151). -/
def stepOn {S : Type} (params : Params) (bus : Bus S) (c : Cpu) (s : S) : Option (Cpu × S × StepResult) :=
  match c.loop with
  | .running =>
    match runningStep params bus c s with
    | (.ok (_, c'), s')  => some (c', s', .continued params.stepCycles)
    | (.error f, s')     => some ({ c with loop := .faulted f }, s', .error f)
  | .halted    => some (c, s, .halt)
  | .faulted _ => none

end Sys2Proof.Machine
end

