-- ==== Sys2Proof/Machine/Run.lean ====
section
/-! DEFINITION. The result of a step and the caller's loop of steps (44_execution_loop.md R138, R145, R150, R152, R153). -/

namespace Sys2Proof.Machine

/-- The result of the step from `s` (R138): Halt in Halted (R150), Error(f) when the step takes the fault f (R160),
Continue(STEP_CYCLES) when it completes (R145). None where there is no step (R151). -/
def stepResult (s : State) : Option StepResult :=
  match s.cpu.loop with
  | .halted    => some .halt
  | .faulted _ => none
  | .running   =>
    match step s with
    | .next t =>
      match t.cpu.loop with
      | .faulted f        => some (.error f)
      | .running | .halted => some (.continued Config.stepCycles)
    | .fault _   => none
    | .refused _ => none

/-- The caller sets Halted between steps (R31, R150). A Halted or Faulted state stays as it is: no transition leaves
either (R150, R151; log entry 14). -/
def callerHalt (s : State) : State :=
  match s.cpu.loop with
  | .running => { s with cpu := { s.cpu with loop := .halted } }
  | .halted | .faulted _ => s

/-- `Run(n, stop)` (R152): at most `n` steps while the loop is Running, `stop(PC)` tested before each; the final state
and the list of step results. -/
def run : Nat → (Word → Bool) → State → State × List StepResult
  | 0, _, s => (s, [])
  | n + 1, stop, s =>
    match s.cpu.loop with
    | .halted | .faulted _ => (s, [])
    | .running =>
      if stop s.cpu.pc then (s, [])
      else
        match step s, stepResult s with
        | .next t, some r =>
          let (u, rs) := run n stop t
          (u, r :: rs)
        | _, _ => (s, [])

/-- The four ways a run ends (R153). -/
inductive RunEnd where
  | halted
  | faulted (f : Fault)
  | bound
  | stopped
  deriving DecidableEq, Repr

/-- How `Run(n, stop)` from `s` ends (R153). A Running state after all `n` steps ends by the bound, whatever `stop` says
of its PC, since no step is left to test before (log entry 16). -/
def runEnd (n : Nat) (stop : Word → Bool) (s : State) : RunEnd :=
  let (t, rs) := run n stop s
  match t.cpu.loop with
  | .halted    => .halted
  | .faulted f => .faulted f
  | .running   => if rs.length = n then .bound else .stopped

end Sys2Proof.Machine
end

