-- ==== Sys2Proof/Safety.lean ====
section
/-! DEFINITION. What counts as a sound state and a safe run, in the terms the statements use. -/

namespace Sys2Proof.Machine

/-- A Faulted state of this hardware records UnimplementedOpcode with the opcode byte at PC and PC itself, and that byte
is not implemented (R155, R161); Running and Halted record nothing (R175). -/
def State.faultRecordOk (s : State) : Bool :=
  match s.cpu.loop with
  | .running | .halted => true
  | .faulted (.unimplementedOpcode op p) => p == s.cpu.pc && op == s.readByte s.cpu.pc && !implemented op
  | .faulted (.invalidAddressingMode _ _ _ _) | .faulted (.wrongOperandForm _ _ _ _) | .faulted (.busError _) => false

/-- The invariant of the machine: memory is in canonical form and a recorded fault is the fault of the opcode at PC. -/
def State.inv (s : State) : Bool := Memory.wf s.mem && s.faultRecordOk

/-- The states some number of steps leads to. -/
inductive Reaches : State → State → Prop where
  | refl (s : State) : Reaches s s
  | step {s t u : State} (h : Reaches s t) (hs : Sys2Proof.Machine.step t = .next u) : Reaches s u

/-- A state that takes a step: every state but a Faulted one (R151, R163). -/
def State.steps (s : State) : Bool :=
  match s.cpu.loop with
  | .running | .halted => true
  | .faulted _ => false

/-- A safe run: every state it reaches is sound, and it stops only in Faulted, never for want of a meaning. -/
def SafeFrom (s : State) : Prop :=
  ∀ t, Reaches s t → t.inv = true ∧ (t.steps = true → ∃ u, Sys2Proof.Machine.step t = .next u)

end Sys2Proof.Machine
end

