-- ==== Sys2Proof/Certificates/Slice0/Obligations.lean ====
section
/-! DEFINITION. The statements for the provers. -/

namespace Sys2Proof.Claims
open Sys2Proof.Machine

/-- `t` is `s` after an instruction of `n` bytes loaded `v` into `r`: the register, Z and N hold the load's result, PC
is past the instruction, and everything else (the other registers, SP, the other six flags, the loop, every byte of
memory) is unchanged. PC of `s` is at the opcode byte (the model's choice, log entry 11). -/
structure Loaded (r : Reg) (v : Byte) (n : Nat) (s t : State) : Prop where
  target     : t.cpu.get r = v
  zero       : testFlag .z t.cpu.p = (v == 0#8)
  negative   : testFlag .n t.cpu.p = v.getLsbD 7
  pc         : t.cpu.pc = s.cpu.pc + BitVec.ofNat 16 n
  otherRegs  : ∀ q, q ≠ r → t.cpu.get q = s.cpu.get q
  otherFlags : ∀ f, f ≠ .z → f ≠ .n → testFlag f t.cpu.p = testFlag f s.cpu.p
  sp         : t.cpu.sp = s.cpu.sp
  loop       : t.cpu.loop = s.cpu.loop
  memory     : ∀ a, t.readByte a = s.readByte a

/-- `t` is `s` after an instruction of `n` bytes stored register `r` at `ea`: the byte there is the register's, PC is
past the instruction, and everything else (A, X, Y, all of P, SP, the loop, every other byte) is unchanged. PC of `s` is
at the opcode byte (the model's choice, log entry 11). -/
structure Stored (r : Reg) (ea : Word) (n : Nat) (s t : State) : Prop where
  byte   : t.readByte ea = s.cpu.get r
  pc     : t.cpu.pc = s.cpu.pc + BitVec.ofNat 16 n
  regs   : ∀ q, t.cpu.get q = s.cpu.get q
  status : t.cpu.p = s.cpu.p
  sp     : t.cpu.sp = s.cpu.sp
  loop   : t.cpu.loop = s.cpu.loop
  memory : ∀ a, a ≠ ea → t.readByte a = s.readByte a

/-- The state with another status byte. -/
def withP (s : State) (p : Byte) : State := { s with cpu := { s.cpu with p := p } }

/-- The state with another stack pointer. -/
def withSp (s : State) (v : Byte) : State := { s with cpu := { s.cpu with sp := v } }

/-- The register an instruction loads, if it is a load. -/
def loadTarget : Instr → Option Reg
  | .ldaImm _ | .ldaZp _ | .ldaZpX _ | .ldaAbs _ _ | .ldaAbsX _ _ | .ldaAbsY _ _ | .ldaIndX _ | .ldaIndY _ => some .a
  | .ldxImm _ | .ldxZp _ | .ldxZpY _ | .ldxAbs _ _ | .ldxAbsY _ _ => some .x
  | .ldyImm _ | .ldyZp _ | .ldyZpX _ | .ldyAbs _ _ | .ldyAbsX _ _ => some .y
  | .staZp _ | .staZpX _ | .staAbs _ _ | .staAbsX _ _ | .staAbsY _ _ | .staIndX _ | .staIndY _ => none
  | .stxZp _ | .stxZpY _ | .stxAbs _ _ | .styZp _ | .styZpX _ | .styAbs _ _ | .unimplemented _ => none

/-- The address an instruction stores to from `s`, if it is a store: the address form of its operand. -/
def storeAddress (i : Instr) (s : State) : Option Word :=
  match i with
  | .staZp b | .stxZp b | .styZp b => some ((MemOperand.zeroPage b).addr s)
  | .staZpX b | .styZpX b => some ((MemOperand.zeroPageX b).addr s)
  | .stxZpY b => some ((MemOperand.zeroPageY b).addr s)
  | .staAbs lo hi | .stxAbs lo hi | .styAbs lo hi => some ((MemOperand.absolute lo hi).addr s)
  | .staAbsX lo hi => some ((MemOperand.absoluteX lo hi).addr s)
  | .staAbsY lo hi => some ((MemOperand.absoluteY lo hi).addr s)
  | .staIndX b => some ((MemOperand.indirectX b).addr s)
  | .staIndY b => some ((MemOperand.indirectY b).addr s)
  | .ldaImm _ | .ldaZp _ | .ldaZpX _ | .ldaAbs _ _ | .ldaAbsX _ _ | .ldaAbsY _ _ | .ldaIndX _ | .ldaIndY _ => none
  | .ldxImm _ | .ldxZp _ | .ldxZpY _ | .ldxAbs _ _ | .ldxAbsY _ _ => none
  | .ldyImm _ | .ldyZp _ | .ldyZpX _ | .ldyAbs _ _ | .ldyAbsX _ _ | .unimplemented _ => none

/-- Reads made while executing, in order. -/
def reads (as : List Word) : List Access := as.map fun a => Access.read a false

/-- Every bus access of a step that runs `i` from `s`, in the order of the table of R86. -/
def accessesOf (i : Instr) (s : State) : List Access :=
  let p := s.cpu.pc
  let one := [p, p + 1#16]
  let two := [p, p + 1#16, p + 2#16]
  let x := s.cpu.x
  let y := s.cpu.y
  let pointer (z : Byte) : Word := hilo (s.readByte (zext16 z)) (s.readByte (zext16 (z + 1#8)))
  match i with
  | .unimplemented _ => reads [p]
  | .ldaImm _ | .ldxImm _ | .ldyImm _ => reads one
  | .ldaZp b | .ldxZp b | .ldyZp b => reads (one ++ [zext16 b])
  | .ldaZpX b | .ldyZpX b => reads (one ++ [zext16 (b + x)])
  | .ldxZpY b => reads (one ++ [zext16 (b + y)])
  | .ldaAbs lo hi | .ldxAbs lo hi | .ldyAbs lo hi => reads (two ++ [hilo lo hi])
  | .ldaAbsX lo hi | .ldyAbsX lo hi => reads (two ++ [hilo lo hi + zext16 x])
  | .ldaAbsY lo hi | .ldxAbsY lo hi => reads (two ++ [hilo lo hi + zext16 y])
  | .ldaIndX b => reads (one ++ [zext16 (b + x), zext16 (b + x + 1#8), pointer (b + x)])
  | .ldaIndY b => reads (one ++ [zext16 b, zext16 (b + 1#8), pointer b + zext16 y])
  | .staZp b => reads one ++ [.write (zext16 b) s.cpu.a]
  | .stxZp b => reads one ++ [.write (zext16 b) x]
  | .styZp b => reads one ++ [.write (zext16 b) y]
  | .staZpX b => reads one ++ [.write (zext16 (b + x)) s.cpu.a]
  | .styZpX b => reads one ++ [.write (zext16 (b + x)) y]
  | .stxZpY b => reads one ++ [.write (zext16 (b + y)) x]
  | .staAbs lo hi => reads two ++ [.write (hilo lo hi) s.cpu.a]
  | .stxAbs lo hi => reads two ++ [.write (hilo lo hi) x]
  | .styAbs lo hi => reads two ++ [.write (hilo lo hi) y]
  | .staAbsX lo hi => reads two ++ [.write (hilo lo hi + zext16 x) s.cpu.a]
  | .staAbsY lo hi => reads two ++ [.write (hilo lo hi + zext16 y) s.cpu.a]
  | .staIndX b => reads (one ++ [zext16 (b + x), zext16 (b + x + 1#8)]) ++ [.write (pointer (b + x)) s.cpu.a]
  | .staIndY b => reads (one ++ [zext16 b, zext16 (b + 1#8)]) ++ [.write (pointer b + zext16 y) s.cpu.a]

end Sys2Proof.Claims

open Sys2Proof Sys2Proof.Machine Sys2Proof.Claims

/-! ### Launch and reset -/

/-- R175: at every launch the loop is Running and no fault is recorded. -/
def Obligations.LaunchStartsRunning : Prop :=
  ∀ (a x y p sp : Byte) (pc : Word) (m : Memory),
    (State.launch a x y p sp pc m).cpu.loop = .running ∧
    ∀ f, (State.launch a x y p sp pc m).cpu.loop ≠ .faulted f

/-- The invariant holds of the reset state and of every launch whose memory is in canonical form. The reset values are
the model's choice (log entries 1 and 2); the second clause rests on none of them. -/
def Obligations.LaunchSatisfiesInvariant : Prop :=
  State.reset.inv = true ∧
  ∀ (a x y p sp : Byte) (pc : Word) (m : Memory), Memory.wf m = true → (State.launch a x y p sp pc m).inv = true

/-! ### Values, registers and flags -/

/-- R13: A, X and Y each hold every byte, and writing one changes no other register, no bit of P, not SP and not PC. -/
def Obligations.RegistersAreIndependent : Prop :=
  ∀ (c : Cpu) (r : Reg) (v : Byte),
    (c.set r v).get r = v ∧ (∀ q, q ≠ r → (c.set r v).get q = c.get q) ∧
    (c.set r v).p = c.p ∧ (c.set r v).sp = c.sp ∧ (c.set r v).pc = c.pc

/-- `+8`, `+16`, `zext_16`, `sext_16` and `hi:lo` on unsigned values. -/
def Obligations.ValueNotationIsModular : Prop :=
  (∀ a b : Byte, (a + b).toNat = (a.toNat + b.toNat) % 256) ∧
  (∀ a b : Word, (a + b).toNat = (a.toNat + b.toNat) % 65536) ∧
  (∀ b : Byte, (zext16 b).toNat = b.toNat) ∧
  (∀ b : Byte, (sext16 b).toInt = b.toInt) ∧
  (∀ lo hi : Byte, (hilo lo hi).toNat = hi.toNat * 256 + lo.toNat)

/-- R18: P as a byte is the weighted sum of its eight flags. -/
def Obligations.StatusByteIsTheSumOfItsFlags : Prop :=
  ∀ p : Byte, p.toNat =
    (testFlag .n p).toNat * 0x80 + (testFlag .v p).toNat * 0x40 + (testFlag .u p).toNat * 0x20 +
    (testFlag .b p).toNat * 0x10 + (testFlag .d p).toNat * 0x08 + (testFlag .i p).toNat * 0x04 +
    (testFlag .z p).toNat * 0x02 + (testFlag .c p).toNat * 0x01

/-- R19 and R88: test returns the flag's bit, set writes 1 to it and clear writes 0, every other bit of P is unchanged,
and no two flags share a bit. -/
def Obligations.FlagOperationsTouchOneBit : Prop :=
  (∀ (f : Flag) (p : Byte),
    testFlag f p = p.getLsbD f.bit ∧
    (setFlag f p).getLsbD f.bit = true ∧ (clearFlag f p).getLsbD f.bit = false ∧
    ∀ k, k ≠ f.bit →
      (setFlag f p).getLsbD k = p.getLsbD k ∧ (clearFlag f p).getLsbD k = p.getLsbD k) ∧
  ∀ f g : Flag, f.bit = g.bit → f = g

/-- R89: UpdateZN writes Z and N from the value, whatever their old values, in three outcomes, and no other flag. -/
def Obligations.UpdateZNFollowsTheValue : Prop :=
  ∀ v p : Byte,
    testFlag .z (updateZN v p) = (v == 0#8) ∧ testFlag .n (updateZN v p) = v.getLsbD 7 ∧
    (∀ f, f ≠ .z → f ≠ .n → testFlag f (updateZN v p) = testFlag f p) ∧
    ¬ (testFlag .z (updateZN v p) = true ∧ testFlag .n (updateZN v p) = true) ∧
    (v.toNat = 0 → testFlag .z (updateZN v p) = true ∧ testFlag .n (updateZN v p) = false) ∧
    (1 ≤ v.toNat → v.toNat ≤ 0x7F → testFlag .z (updateZN v p) = false ∧ testFlag .n (updateZN v p) = false) ∧
    (0x80 ≤ v.toNat → testFlag .z (updateZN v p) = false ∧ testFlag .n (updateZN v p) = true)

/-! ### Memory -/

/-- The reference bus, the spec's own decision, reads the byte and changes nothing, writes the byte and no other, and reports no error, for
either value of side_effect_free. -/
def Obligations.ReferenceBusIsPlainStorage : Prop :=
  ∀ (m : Memory) (a : Word) (v : Byte) (free : Bool), Memory.wf m = true →
    referenceBus.read m a free = (.ok (Memory.read m a.toNat), m) ∧
    ∃ m', referenceBus.write m a v = (.ok (), m') ∧ Memory.wf m' = true ∧ Memory.read m' a.toNat = v ∧
      ∀ b : Word, b ≠ a → Memory.read m' b.toNat = Memory.read m b.toNat

/-- Every total map from 16-bit addresses to bytes is exactly one canonical memory: the states cover every launch memory,
and equal memories are equal data. -/
def Obligations.EveryByteMapIsOneMemory : Prop :=
  ∀ g : Word → Byte, ∃ m, (Memory.wf m = true ∧ ∀ a : Word, Memory.read m a.toNat = g a) ∧
    ∀ m', (Memory.wf m' = true ∧ ∀ a : Word, Memory.read m' a.toNat = g a) → m' = m

/-! ### Encoding -/

/-- Words written out from the encodings of R102, R105, R109, R114, R119, R126, R130, R134 and R136, and BRK's byte. -/
def Obligations.WordsOfTheSpecDecode : Prop :=
  decodeTableWord 16 0x80A9 = some (.ldaImm 0x80) ∧
  decodeTableWord 24 0x1234AD = some (.ldaAbs 0x34 0x12) ∧
  decodeTableWord 16 0x40B1 = some (.ldaIndY 0x40) ∧
  decodeTableWord 24 0x12FEBE = some (.ldxAbsY 0xFE 0x12) ∧
  decodeTableWord 24 0x12FEBC = some (.ldyAbsX 0xFE 0x12) ∧
  decodeTableWord 16 0xFE95 = some (.staZpX 0xFE) ∧
  decodeTableWord 16 0x2081 = some (.staIndX 0x20) ∧
  decodeTableWord 24 0x12348E = some (.stxAbs 0x34 0x12) ∧
  decodeTableWord 16 0xFE94 = some (.styZpX 0xFE) ∧
  decodeTableWord 8 0x00 = some (.unimplemented 0x00)

/-- Decoding the bytes of any well-formed instruction gives it back, with the bytes after it, at every operand value. -/
def Obligations.DecodeInvertsEncode : Prop :=
  ∀ (i : Instr) (rest : List Byte), i.wf = true → decode (encode i ++ rest) = .ok (i, rest)

/-- What decodes is the encoding of a well-formed instruction followed by the rest: each byte string has one meaning. -/
def Obligations.EncodeInvertsDecode : Prop :=
  ∀ (bytes rest : List Byte) (i : Instr), decode bytes = .ok (i, rest) → bytes = encode i ++ rest ∧ i.wf = true

/-- The opcode byte alone fixes the length: with enough bytes after it the decoder answers an instruction of
`1 + len(mode)` bytes (one byte for an unimplemented opcode), with fewer it rejects by name, and it never meets a mode
outside a legal subset. -/
def Obligations.LengthComesFromTheOpcode : Prop :=
  ∀ (op : Byte) (rest : List Byte),
    ((opcodeTable op).mode.len.getD 0 ≤ rest.length →
      ∃ i, decode (op :: rest) = .ok (i, rest.drop ((opcodeTable op).mode.len.getD 0)) ∧
        (encode i).length = 1 + (opcodeTable op).mode.len.getD 0) ∧
    (rest.length < (opcodeTable op).mode.len.getD 0 → decode (op :: rest) = .error (.missingOperand op))

/-- Every byte is one of the 31 implemented opcodes, whose mode is legal for its mnemonic, or maps to the explicit
unimplemented entry; the unimplemented ones are 225. -/
def Obligations.OpcodeTableIsTotalAndLegal : Prop :=
  (∀ op : Byte,
    (implemented op = true → (opcodeTable op).mnemonic.hasExecutor = true ∧
      legal (opcodeTable op).mnemonic (opcodeTable op).mode = true) ∧
    (implemented op = false → opcodeTable op = ⟨.unimplemented, .unimplemented⟩)) ∧
  opcodeRows.length = 31 ∧
  ((List.range 256).filter fun n => !implemented (BitVec.ofNat 8 n)).length = 225

/-! ### Operands -/

/-- How each operand form is assembled, nothing sign-extended, scaled or shifted. The high byte of a pointer at 0xFF
is at 0x0000, the hardware's ZP_PTR_WRAP. -/
def Obligations.OperandsAreAssembledUnsigned : Prop :=
  ∀ (s : State) (b lo hi : Byte),
    (∃ t, exec (.ldaImm b) s = .next t ∧ t.cpu.a = b) ∧
    (MemOperand.zeroPage b).addr s = zext16 b ∧
    (MemOperand.zeroPageX b).addr s = zext16 (b + s.cpu.x) ∧
    (MemOperand.zeroPageY b).addr s = zext16 (b + s.cpu.y) ∧
    (MemOperand.absolute lo hi).addr s = hilo lo hi ∧
    (MemOperand.absoluteX lo hi).addr s = hilo lo hi + zext16 s.cpu.x ∧
    (MemOperand.absoluteY lo hi).addr s = hilo lo hi + zext16 s.cpu.y ∧
    (MemOperand.indirectX b).addr s =
      hilo (s.readByte (zext16 (b + s.cpu.x))) (s.readByte (zext16 (b + s.cpu.x + 1#8))) ∧
    (MemOperand.indirectY b).addr s =
      hilo (s.readByte (zext16 b)) (s.readByte (zext16 (b + 1#8))) + zext16 s.cpu.y

/-! ### Loads: result, frame and completion of every load -/

/-- LDA in its eight modes completes from every state, loads the byte its mode names into A, and changes nothing but A, Z,
N and PC. -/
def Obligations.LdaLoadsA : Prop :=
  ∀ (s : State) (b lo hi : Byte),
    (∃ t, exec (.ldaImm b) s = .next t ∧ Loaded .a b 2 s t) ∧
    (∃ t, exec (.ldaZp b) s = .next t ∧ Loaded .a (s.readByte (zext16 b)) 2 s t) ∧
    (∃ t, exec (.ldaZpX b) s = .next t ∧ Loaded .a (s.readByte (zext16 (b + s.cpu.x))) 2 s t) ∧
    (∃ t, exec (.ldaAbs lo hi) s = .next t ∧ Loaded .a (s.readByte (hilo lo hi)) 3 s t) ∧
    (∃ t, exec (.ldaAbsX lo hi) s = .next t ∧ Loaded .a (s.readByte (hilo lo hi + zext16 s.cpu.x)) 3 s t) ∧
    (∃ t, exec (.ldaAbsY lo hi) s = .next t ∧ Loaded .a (s.readByte (hilo lo hi + zext16 s.cpu.y)) 3 s t) ∧
    (∃ t, exec (.ldaIndX b) s = .next t ∧
      Loaded .a (s.readByte (hilo (s.readByte (zext16 (b + s.cpu.x))) (s.readByte (zext16 (b + s.cpu.x + 1#8))))) 2 s t) ∧
    (∃ t, exec (.ldaIndY b) s = .next t ∧
      Loaded .a (s.readByte (hilo (s.readByte (zext16 b)) (s.readByte (zext16 (b + 1#8))) + zext16 s.cpu.y)) 2 s t)

/-- LDX in its five modes completes from every state, loads the byte its mode names into X, and changes nothing but X, Z,
N and PC. -/
def Obligations.LdxLoadsX : Prop :=
  ∀ (s : State) (b lo hi : Byte),
    (∃ t, exec (.ldxImm b) s = .next t ∧ Loaded .x b 2 s t) ∧
    (∃ t, exec (.ldxZp b) s = .next t ∧ Loaded .x (s.readByte (zext16 b)) 2 s t) ∧
    (∃ t, exec (.ldxZpY b) s = .next t ∧ Loaded .x (s.readByte (zext16 (b + s.cpu.y))) 2 s t) ∧
    (∃ t, exec (.ldxAbs lo hi) s = .next t ∧ Loaded .x (s.readByte (hilo lo hi)) 3 s t) ∧
    (∃ t, exec (.ldxAbsY lo hi) s = .next t ∧ Loaded .x (s.readByte (hilo lo hi + zext16 s.cpu.y)) 3 s t)

/-- LDY in its five modes completes from every state, loads the byte its mode names into Y, and changes nothing but Y, Z,
N and PC. -/
def Obligations.LdyLoadsY : Prop :=
  ∀ (s : State) (b lo hi : Byte),
    (∃ t, exec (.ldyImm b) s = .next t ∧ Loaded .y b 2 s t) ∧
    (∃ t, exec (.ldyZp b) s = .next t ∧ Loaded .y (s.readByte (zext16 b)) 2 s t) ∧
    (∃ t, exec (.ldyZpX b) s = .next t ∧ Loaded .y (s.readByte (zext16 (b + s.cpu.x))) 2 s t) ∧
    (∃ t, exec (.ldyAbs lo hi) s = .next t ∧ Loaded .y (s.readByte (hilo lo hi)) 3 s t) ∧
    (∃ t, exec (.ldyAbsX lo hi) s = .next t ∧ Loaded .y (s.readByte (hilo lo hi + zext16 s.cpu.x)) 3 s t)

/-- R90: a load applies UpdateZN once, to the value it loaded, and P changes in no other way: P after any load is UpdateZN
of the target register's new value on P before. -/
def Obligations.LoadsUpdateZNOfTheLoadedValue : Prop :=
  ∀ (i : Instr) (r : Reg) (s : State), loadTarget i = some r →
    ∃ t, exec i s = .next t ∧ t.cpu.p = updateZN (t.cpu.get r) s.cpu.p ∧
      ∀ f, f ≠ .z → f ≠ .n → testFlag f t.cpu.p = testFlag f s.cpu.p

/-- A load never writes memory, and on any bus with any opcode table every access of a load's step is a read. -/
def Obligations.LoadsOnlyRead : Prop :=
  (∀ (i : Instr) (r : Reg) (s : State), loadTarget i = some r → ∃ t, exec i s = .next t ∧ t.mem = s.mem) ∧
  ∀ (S : Type) (params : Params) (bus : Bus S) (c c' : Cpu) (s s' : S) (log log' : List Access) (op : Byte)
    (r : StepResult),
    (bus.read s c.pc false).1 = .ok op →
    ((params.opcodeTable op).mnemonic = .lda ∨ (params.opcodeTable op).mnemonic = .ldx ∨
      (params.opcodeTable op).mnemonic = .ldy) →
    stepOn params (tracedBus bus) c (s, log) = some (c', (s', log'), r) →
    ∃ more, log' = log ++ more ∧ ∀ x ∈ more, x.isRead = true

/-! ### Stores: result, frame and completion of every store -/

/-- STA in its seven modes completes from every state, stores A at the address its operand names, and changes nothing but
that byte and PC. -/
def Obligations.StaStoresA : Prop :=
  ∀ (s : State) (b lo hi : Byte), Memory.wf s.mem = true →
    (∃ t, exec (.staZp b) s = .next t ∧ Stored .a ((MemOperand.zeroPage b).addr s) 2 s t) ∧
    (∃ t, exec (.staZpX b) s = .next t ∧ Stored .a ((MemOperand.zeroPageX b).addr s) 2 s t) ∧
    (∃ t, exec (.staAbs lo hi) s = .next t ∧ Stored .a ((MemOperand.absolute lo hi).addr s) 3 s t) ∧
    (∃ t, exec (.staAbsX lo hi) s = .next t ∧ Stored .a ((MemOperand.absoluteX lo hi).addr s) 3 s t) ∧
    (∃ t, exec (.staAbsY lo hi) s = .next t ∧ Stored .a ((MemOperand.absoluteY lo hi).addr s) 3 s t) ∧
    (∃ t, exec (.staIndX b) s = .next t ∧ Stored .a ((MemOperand.indirectX b).addr s) 2 s t) ∧
    (∃ t, exec (.staIndY b) s = .next t ∧ Stored .a ((MemOperand.indirectY b).addr s) 2 s t)

/-- STX in its three modes completes from every state, stores X at the address its operand names, and changes nothing but
that byte and PC. -/
def Obligations.StxStoresX : Prop :=
  ∀ (s : State) (b lo hi : Byte), Memory.wf s.mem = true →
    (∃ t, exec (.stxZp b) s = .next t ∧ Stored .x ((MemOperand.zeroPage b).addr s) 2 s t) ∧
    (∃ t, exec (.stxZpY b) s = .next t ∧ Stored .x ((MemOperand.zeroPageY b).addr s) 2 s t) ∧
    (∃ t, exec (.stxAbs lo hi) s = .next t ∧ Stored .x ((MemOperand.absolute lo hi).addr s) 3 s t)

/-- STY in its three modes completes from every state, stores Y at the address its operand names, and changes nothing but
that byte and PC. -/
def Obligations.StyStoresY : Prop :=
  ∀ (s : State) (b lo hi : Byte), Memory.wf s.mem = true →
    (∃ t, exec (.styZp b) s = .next t ∧ Stored .y ((MemOperand.zeroPage b).addr s) 2 s t) ∧
    (∃ t, exec (.styZpX b) s = .next t ∧ Stored .y ((MemOperand.zeroPageX b).addr s) 2 s t) ∧
    (∃ t, exec (.styAbs lo hi) s = .next t ∧ Stored .y ((MemOperand.absolute lo hi).addr s) 3 s t)

/-- R91: a store writes no flag: all of P is unchanged. -/
def Obligations.StoresWriteNoFlag : Prop :=
  ∀ (i : Instr) (ea : Word) (s : State), storeAddress i s = some ea → ∃ t, exec i s = .next t ∧ t.cpu.p = s.cpu.p

/-- A store over a byte that the next step fetches is seen by that fetch (R51, R178): STA Absolute onto the byte after
itself makes A the next opcode byte. PC starts at the opcode byte of the STA (the model's choice, log entry 11). -/
def Obligations.StoredByteIsTheNextOpcode : Prop :=
  ∀ (s : State) (lo hi : Byte), Memory.wf s.mem = true → hilo lo hi = s.cpu.pc + 3#16 →
    ∃ t, exec (.staAbs lo hi) s = .next t ∧ t.readByte t.cpu.pc = s.cpu.a

/-! ### The unimplemented opcodes -/

/-- The unimplemented instruction takes the fault UnimplementedOpcode from every state: the loop records the opcode byte
and its address, and every register, PC included, and all of memory are unchanged. PC of the state is at the opcode byte
(the model's choice, log entry 11). -/
def Obligations.UnimplementedTakesItsFault : Prop :=
  ∀ (op : Byte) (s : State), ∃ t, exec (.unimplemented op) s = .next t ∧
    t.cpu.loop = .faulted (.unimplementedOpcode op s.cpu.pc) ∧
    t.cpu.a = s.cpu.a ∧ t.cpu.x = s.cpu.x ∧ t.cpu.y = s.cpu.y ∧ t.cpu.p = s.cpu.p ∧ t.cpu.sp = s.cpu.sp ∧
    t.cpu.pc = s.cpu.pc ∧ ∀ a, t.readByte a = s.readByte a

/-- A Running step whose opcode byte is none of the 31 takes that fault, whatever the bytes after it. -/
def Obligations.EveryOtherByteIsUnimplemented : Prop :=
  ∀ s : State, s.cpu.loop = .running → implemented (s.readByte s.cpu.pc) = false →
    ∃ t, step s = .next t ∧
      stepResult s = some (.error (.unimplementedOpcode (s.readByte s.cpu.pc) s.cpu.pc)) ∧
      t = { s with cpu := { s.cpu with loop := .faulted (.unimplementedOpcode (s.readByte s.cpu.pc) s.cpu.pc) } }

/-! ### Frames over all instructions -/

/-- Whatever the instruction, it answers a next state, and every byte of memory outside the address it stores to is
unchanged; an instruction that stores nothing changes no byte. -/
def Obligations.MemoryChangesOnlyAtTheStoreAddress : Prop :=
  ∀ (i : Instr) (s : State), ∃ t, exec i s = .next t ∧
    ∀ a, storeAddress i s ≠ some a → t.readByte a = s.readByte a

/-- Whatever the instruction, a general register changes only if it is the one a load names, SP never, P only in a load
and there only in Z and N, and the loop only in an unimplemented opcode. -/
def Obligations.RegistersChangeOnlyAsNamed : Prop :=
  ∀ (i : Instr) (s : State), ∃ t, exec i s = .next t ∧
    (∀ q, loadTarget i ≠ some q → t.cpu.get q = s.cpu.get q) ∧
    t.cpu.sp = s.cpu.sp ∧
    (loadTarget i = none → t.cpu.p = s.cpu.p) ∧
    (∀ f, f ≠ .z → f ≠ .n → testFlag f t.cpu.p = testFlag f s.cpu.p) ∧
    (i.mnemonic ≠ .unimplemented → t.cpu.loop = s.cpu.loop)

/-! ### The step -/

/-- When the bytes at PC decode to an instruction, a Running step is exactly `exec` of it: nothing is added.
That `exec` is handed the state with PC at the opcode byte and moves PC itself is the model's choice (log entry 11): R12
and R140 hand the executor PC already one past it. -/
def Obligations.StepRunsTheDecodedInstruction : Prop :=
  ∀ (s : State) (i : Instr) (rest : List Byte), s.cpu.loop = .running →
    decode [s.readByte s.cpu.pc, s.readByte (s.cpu.pc + 1#16), s.readByte (s.cpu.pc + 2#16)] = .ok (i, rest) →
    step s = exec i s

/-- A table word placed by `withFetchWord` is what the very next step runs, and placing it changes only the three bytes at
PC and the loop (the model's own loader, log entry 5). -/
def Obligations.PlacedWordIsRunNext : Prop :=
  ∀ (s : State) (nbits w : Nat) (i : Instr), Memory.wf s.mem = true → decodeTableWord nbits w = some i →
    step (s.withFetchWord nbits w) = exec i (s.withFetchWord nbits w) ∧
    (s.withFetchWord nbits w).cpu = { s.cpu with loop := .running } ∧
    ∀ a, a ≠ s.cpu.pc → a ≠ s.cpu.pc + 1#16 → a ≠ s.cpu.pc + 2#16 →
      (s.withFetchWord nbits w).readByte a = s.readByte a

/-- Every Running or Halted state takes a step, and the only outcome from a Faulted one is the fault it records: a step is
never refused, and ordinary data never stops the machine. -/
def Obligations.EveryUnfaultedStateSteps : Prop :=
  ∀ s : State, (s.steps = true → ∃ t, step s = .next t) ∧
    (∀ f, step s = .fault f ↔ s.cpu.loop = .faulted f) ∧ ∀ r, step s ≠ .refused r

/-- A Running step on an implemented opcode completes and leaves PC past the instruction, 2 or 3 bytes on, for every
operand value, wrapping at 0xFFFF. -/
def Obligations.PcPassesTheInstruction : Prop :=
  ∀ s : State, s.cpu.loop = .running → implemented (s.readByte s.cpu.pc) = true →
    ∃ t n, step s = .next t ∧ (opcodeTable (s.readByte s.cpu.pc)).mode.len = some n ∧ (n = 1 ∨ n = 2) ∧
      t.cpu.pc.toNat = (s.cpu.pc.toNat + 1 + n) % 65536 ∧ t.cpu.loop = .running

/-- R145: a completed step returns Continue(STEP_CYCLES), the same for every opcode; a faulting step returns Error(f) and
no count. -/
def Obligations.CompletedStepsReturnThePlaceholder : Prop :=
  ∀ s t : State, s.cpu.loop = .running → step s = .next t →
    (t.cpu.loop = .running → stepResult s = some (.continued Config.stepCycles)) ∧
    ∀ f, t.cpu.loop = .faulted f → stepResult s = some (.error f)

/-- R150: a step in Halted returns Halt and changes nothing, no step enters Halted from elsewhere, and the caller may set
Halted between steps, changing nothing else. -/
def Obligations.HaltedIsFinal : Prop :=
  (∀ s : State, s.cpu.loop = .halted → step s = .next s ∧ stepResult s = some .halt) ∧
  (∀ s t : State, step s = .next t → t.cpu.loop = .halted → s.cpu.loop = .halted) ∧
  ∀ s : State, s.cpu.loop = .running → callerHalt s = { s with cpu := { s.cpu with loop := .halted } }

/-- R171: Halted is idle for good: no number of steps leaves it or changes a register or a byte. -/
def Obligations.NothingWakesAHaltedCore : Prop :=
  ∀ s t : State, s.cpu.loop = .halted → Reaches s t → t = s

/-- Faulted(f) is entered by every step that returns Error(f), and from it there is no next state and no result. That the
host sees the fault f there is log entry 3, and that the caller cannot move it to Halted either is the model's choice, log
entry 14. -/
def Obligations.FaultedTakesNoStep : Prop :=
  (∀ (s : State) (f : Fault), stepResult s = some (.error f) → ∃ t, step s = .next t ∧ t.cpu.loop = .faulted f) ∧
  ∀ (s : State) (f : Fault), s.cpu.loop = .faulted f → step s = .fault f ∧ stepResult s = none ∧ callerHalt s = s

/-! ### Whole-machine rules -/

/-- The invariant is kept by every step, from every state that has it: memory stays in canonical form, and a recorded
fault is UnimplementedOpcode of the byte at PC. -/
def Obligations.StepKeepsInvariant : Prop :=
  ∀ s t : State, s.inv = true → step s = .next t → t.inv = true

/-- Every run from a state with the invariant stays in sound states and stops only in Faulted. -/
def Obligations.SoundStatesAreSafe : Prop :=
  ∀ s : State, s.inv = true → SafeFrom s

/-- R29: no step, completing or faulting, changes SP, and none depends on it. -/
def Obligations.StackPointerIsNeverUsed : Prop :=
  ∀ s t : State, step s = .next t →
    t.cpu.sp = s.cpu.sp ∧ ∀ v, step (withSp s v) = .next (withSp t v)

/-- R21 to R25, R27 and R94: no step changes V, U, B, D, I or C, and no step's effect or result depends on them: with any
other P the step gives the same result and the same next state but for P, where the six flags are those given and Z and N
are those the step writes, or all of P is as given. -/
def Obligations.SixFlagsAreHeldAndUnread : Prop :=
  ∀ s t : State, step s = .next t →
    (∀ f, f ≠ .z → f ≠ .n → testFlag f t.cpu.p = testFlag f s.cpu.p) ∧
    ∀ p, stepResult (withP s p) = stepResult s ∧
      ∃ q, step (withP s p) = .next (withP t q) ∧
        (∀ f, f ≠ .z → f ≠ .n → testFlag f q = testFlag f p) ∧
        ((testFlag .z q = testFlag .z t.cpu.p ∧ testFlag .n q = testFlag .n t.cpu.p) ∨ (t.cpu.p = s.cpu.p ∧ q = p))

/-- R20 and R26: after every load N is bit 7 of the loaded value and Z is 1 exactly when it is 0, no other instruction
writes either, and no instruction's effect depends on them: with any other P the next state is the same but for P, whose
six other flags are those given. -/
def Obligations.LoadsAloneWriteNAndZ : Prop :=
  ∀ (i : Instr) (s : State), ∃ t, exec i s = .next t ∧
    (∀ r, loadTarget i = some r →
      testFlag .n t.cpu.p = (t.cpu.get r).getLsbD 7 ∧ testFlag .z t.cpu.p = (t.cpu.get r == 0#8)) ∧
    (loadTarget i = none → testFlag .n t.cpu.p = testFlag .n s.cpu.p ∧ testFlag .z t.cpu.p = testFlag .z s.cpu.p) ∧
    ∀ p, ∃ q, exec i (withP s p) = .next (withP t q) ∧ ∀ f, f ≠ .z → f ≠ .n → testFlag f q = testFlag f p

/-- From two states that differ only in P, a step gives states that differ at most in P, with the same Z and N after a
load and both P unchanged after anything else. -/
def Obligations.StatusInfluencesNothingElse : Prop :=
  ∀ (s t : State) (p : Byte), step s = .next t →
    ∃ q, step (withP s p) = .next (withP t q) ∧
      ((testFlag .z q = testFlag .z t.cpu.p ∧ testFlag .n q = testFlag .n t.cpu.p) ∨ (t.cpu.p = s.cpu.p ∧ q = p))

/-- The step is the spec's loop: for every state, `step` with its result is the loop of R139 run at the hardware's
parameters on the reference bus, reading its own operand bytes, staging its registers and committing them. -/
def Obligations.StepIsTheLoopOfTheSpec : Prop :=
  ∀ s : State, stepOn hardware referenceBus s.cpu s.mem =
    match step s, stepResult s with
    | .next t, some r => some (t.cpu, t.mem, r)
    | _, _ => none

/-! ### The loop on any bus, with any opcode table -/

/-- MemRead and MemWrite make one bus access, a read with side_effect_free = false, and pass the bus's error on
unchanged as BusError. -/
def Obligations.MemoryPrimitivesPassErrorsOn : Prop :=
  ∀ (S : Type) (bus : Bus S) (a : Word) (v : Byte) (c : Cpu) (s s' : S),
    (∀ b, bus.read s a false = (.ok b, s') → memRead bus a c s = (.ok (b, c), s')) ∧
    (∀ e, bus.read s a false = (.error e, s') → memRead bus a c s = (.error (.busError e), s')) ∧
    (bus.write s a v = (.ok (), s') → memWrite bus a v c s = (.ok ((), c), s')) ∧
    (∀ e, bus.write s a v = (.error e, s') → memWrite bus a v c s = (.error (.busError e), s'))

/-- On any bus with any table, when the step raises f it returns Error(f), the
loop becomes Faulted(f) and no register changes, PC included (restoring PC is the spec's own decision, R161); what the bus did stays. -/
def Obligations.FaultsArePreciseOnEveryBus : Prop :=
  ∀ (S : Type) (params : Params) (bus : Bus S) (c : Cpu) (s s' : S) (f : Fault), c.loop = .running →
    (runningStep params bus c s = (.error f, s') →
      stepOn params bus c s = some ({ c with loop := .faulted f }, s', .error f)) ∧
    ∀ c', stepOn params bus c s = some (c', s', .error f) →
      c'.loop = .faulted f ∧ c'.a = c.a ∧ c'.x = c.x ∧ c'.y = c.y ∧ c'.p = c.p ∧ c'.sp = c.sp ∧ c'.pc = c.pc

/-- R142: on any bus with any table, an opcode byte whose mnemonic has no executor raises UnimplementedOpcode, and the bus
is left as the opcode fetch left it: no operand byte is read. -/
def Obligations.MissingExecutorFaultsBeforeOperands : Prop :=
  ∀ (S : Type) (params : Params) (bus : Bus S) (c : Cpu) (s s' : S) (op : Byte), c.loop = .running →
    bus.read s c.pc false = (.ok op, s') → (params.opcodeTable op).mnemonic.hasExecutor = false →
    ∃ c', stepOn params bus c s = some (c', s', .error (.unimplementedOpcode op c.pc)) ∧
      c'.loop = .faulted (.unimplementedOpcode op c.pc)

/-- R143: on any bus with any table, an implemented mnemonic with a mode outside its legal subset raises
InvalidAddressingMode, and the bus is left as the opcode fetch left it: no operand byte is read. The hardware's table has
no such entry. -/
def Obligations.IllegalModeFaultsBeforeOperands : Prop :=
  (∀ (S : Type) (params : Params) (bus : Bus S) (c : Cpu) (s s' : S) (op : Byte), c.loop = .running →
    bus.read s c.pc false = (.ok op, s') →
    (params.opcodeTable op).mnemonic.hasExecutor = true →
    legal (params.opcodeTable op).mnemonic (params.opcodeTable op).mode = false →
    ∃ c', stepOn params bus c s = some (c', s',
        .error (.invalidAddressingMode (params.opcodeTable op).mnemonic (params.opcodeTable op).mode op c.pc)) ∧
      c'.loop = .faulted (.invalidAddressingMode (params.opcodeTable op).mnemonic
                           (params.opcodeTable op).mode op c.pc)) ∧
  ∀ op : Byte, (opcodeTable op).mnemonic.hasExecutor = true →
    legal (opcodeTable op).mnemonic (opcodeTable op).mode = true

/-- The ends of the fault order: a bus error on the opcode fetch comes before every other fault, and once the two checks
have passed the only fault left is a bus error (so WrongOperandForm never ends a step). -/
def Obligations.BusErrorsComeFirstAndLast : Prop :=
  ∀ (S : Type) (params : Params) (bus : Bus S) (c : Cpu) (s : S), c.loop = .running →
    (∀ e s', bus.read s c.pc false = (.error e, s') →
      stepOn params bus c s = some ({ c with loop := .faulted (.busError e) }, s', .error (.busError e))) ∧
    ∀ op c' s' f, (bus.read s c.pc false).1 = .ok op →
      (params.opcodeTable op).mnemonic.hasExecutor = true →
      legal (params.opcodeTable op).mnemonic (params.opcodeTable op).mode = true →
      stepOn params bus c s = some (c', s', .error f) → ∃ e, f = .busError e

/-- On any bus with any table, the accesses of one step are reads with side_effect_free = false followed by at most one
write, the step's last access. -/
def Obligations.StepReadsThenWritesAtMostOnce : Prop :=
  ∀ (S : Type) (params : Params) (bus : Bus S) (c c' : Cpu) (s s' : S) (log log' : List Access) (r : StepResult),
    stepOn params (tracedBus bus) c (s, log) = some (c', (s', log'), r) →
    ∃ addrs writes, log' = log ++ reads addrs ++ writes ∧
      (writes = [] ∨ ∃ a v, writes = [Access.write a v])

/-- On the reference bus the accesses of a step are exactly those the table of R86 lists for its instruction, in that
order: no dummy read, no read before a store's write, no operand byte of an unimplemented opcode. -/
def Obligations.AccessesAreThoseOfTheTable : Prop :=
  ∀ s : State, s.cpu.loop = .running →
    ∃ c' m' r, stepOn hardware (tracedBus referenceBus) s.cpu (s.mem, []) =
      some (c', (m', accessesOf (fetchInstr s) s), r)

/-! ### The resolver -/

/-- R70 and R72: Accumulator yields A and consumes nothing, Immediate yields the byte at PC and consumes it, the address
form of either is WrongOperandForm before any byte is consumed, and no opcode of the table uses Accumulator. -/
def Obligations.AccumulatorAndImmediateYieldValues : Prop :=
  Mode.len .accumulator = some 0 ∧ Mode.len .immediate = some 1 ∧
  (∀ op : Byte, (opcodeTable op).mode ≠ .accumulator) ∧
  ∀ (wrap : Bool) (site : Site) (c : Cpu),
    (∀ (S : Type) (bus : Bus S) (s : S),
      resolveValue wrap bus site .accumulator c s = (.ok (c.a, c), s) ∧
      resolveAddress wrap bus site .accumulator c s =
        (.error (.wrongOperandForm .accumulator .address site.opcode site.pc), s) ∧
      resolveAddress wrap bus site .immediate c s =
        (.error (.wrongOperandForm .immediate .address site.opcode site.pc), s)) ∧
    ∀ m : Memory, resolveValue wrap referenceBus site .immediate c m =
      (.ok (Memory.read m c.pc.toNat, { c with pc := c.pc + 1#16 }), m)

/-- R73, R74 and R75: the zero-page modes consume one byte, add the index with 8-bit wrap and stay in page 0. -/
def Obligations.ZeroPageModesStayInPageZero : Prop :=
  ∀ (wrap : Bool) (site : Site) (c : Cpu) (m : Memory),
    let b := Memory.read m c.pc.toNat
    let c' := { c with pc := c.pc + 1#16 }
    resolveAddress wrap referenceBus site .zeroPage c m = (.ok (zext16 b, c'), m) ∧
    resolveAddress wrap referenceBus site .zeroPageX c m = (.ok (zext16 (b + c.x), c'), m) ∧
    resolveAddress wrap referenceBus site .zeroPageY c m = (.ok (zext16 (b + c.y), c'), m) ∧
    (zext16 b).toNat < 256 ∧ (zext16 (b + c.x)).toNat < 256 ∧ (zext16 (b + c.y)).toNat < 256

/-- R76, R77 and R78: the absolute modes consume two bytes, low byte first, and add the index with 16-bit wrap. -/
def Obligations.AbsoluteModesCarryIntoTheHighByte : Prop :=
  ∀ (wrap : Bool) (site : Site) (c : Cpu) (m : Memory),
    let lo := Memory.read m c.pc.toNat
    let hi := Memory.read m (c.pc + 1#16).toNat
    let c' := { c with pc := c.pc + 2#16 }
    resolveAddress wrap referenceBus site .absolute c m = (.ok (hilo lo hi, c'), m) ∧
    resolveAddress wrap referenceBus site .absoluteX c m = (.ok (hilo lo hi + zext16 c.x, c'), m) ∧
    resolveAddress wrap referenceBus site .absoluteY c m = (.ok (hilo lo hi + zext16 c.y, c'), m)

/-- A zero-page pointer is its low byte, then its high byte at the next address, in page 0 or not by ZP_PTR_WRAP; the
two settings differ only when the pointer is at 0xFF. -/
def Obligations.ZeroPagePointersUnderBothWraps : Prop :=
  ∀ (p : Byte) (c : Cpu) (m : Memory),
    readPointer true referenceBus p c m =
      (.ok (hilo (Memory.read m p.toNat) (Memory.read m ((p.toNat + 1) % 256)), c), m) ∧
    readPointer false referenceBus p c m =
      (.ok (hilo (Memory.read m p.toNat) (Memory.read m (p.toNat + 1)), c), m) ∧
    (p ≠ 0xFF#8 → readPointer true referenceBus p c m = readPointer false referenceBus p c m)

/-- R79 and R80: IndirectX adds X to the pointer's address with 8-bit wrap and nothing to the pointer; IndirectY adds Y to
the pointer with 16-bit wrap and nothing to its address. -/
def Obligations.IndirectModesIndexBeforeOrAfter : Prop :=
  ∀ (wrap : Bool) (site : Site) (c : Cpu) (m : Memory),
    let b := Memory.read m c.pc.toNat
    let c' := { c with pc := c.pc + 1#16 }
    resolveAddress wrap referenceBus site .indirectX c m = readPointer wrap referenceBus (b + c.x) c' m ∧
    ∃ base, readPointer wrap referenceBus b c' m = (.ok (base, c'), m) ∧
      resolveAddress wrap referenceBus site .indirectY c m = (.ok (base + zext16 c.y, c'), m)

/-- R67: on any bus, resolving a mode in either form adds exactly `len(m)` to PC modulo 2^16, for every operand, index,
pointer and data byte, and changes no other register. -/
def Obligations.ResolvingAdvancesPcByTheModeAlone : Prop :=
  ∀ (S : Type) (bus : Bus S) (wrap : Bool) (site : Site) (m : Mode) (n : Nat) (c c' : Cpu) (s s' : S),
    m.len = some n →
    (∀ ea, resolveAddress wrap bus site m c s = (.ok (ea, c'), s') → c' = { c with pc := c.pc + BitVec.ofNat 16 n }) ∧
    (∀ v, resolveValue wrap bus site m c s = (.ok (v, c'), s') → c' = { c with pc := c.pc + BitVec.ofNat 16 n })

/-! ### The caller's loop -/

/-- A run of at most n steps ends in exactly one of four ways: Halted, Faulted(f) with Error(f) its last result, Running
after n steps, or Running before a step at which `stop(PC)` holds. -/
def Obligations.RunsEndInFourWays : Prop :=
  ∀ (n : Nat) (stop : Word → Bool) (s t : State) (rs : List StepResult), run n stop s = (t, rs) →
    rs.length ≤ n ∧
    (runEnd n stop s = .halted ↔ t.cpu.loop = .halted) ∧
    (∀ f, runEnd n stop s = .faulted f ↔ t.cpu.loop = .faulted f) ∧
    (runEnd n stop s = .bound ↔ t.cpu.loop = .running ∧ rs.length = n) ∧
    (runEnd n stop s = .stopped ↔ t.cpu.loop = .running ∧ rs.length < n ∧ stop t.cpu.pc = true) ∧
    (∀ f, s.cpu.loop = .running → t.cpu.loop = .faulted f → rs.getLast? = some (.error f))
end

