-- ==== Sys2Proof/Laws/Decode.lean ====
section
/-! SUPPORT. What the opcode table and the decoder can answer, said once. -/

namespace Sys2Proof

/-- An implemented opcode byte is the opcode of a row of the table. -/
theorem implemented_iff (op : Byte) : implemented op = true ↔ ∃ r ∈ opcodeRows, r.opcode = op := by
  simp [implemented, List.find?_isSome]

/-- An unimplemented opcode byte has the explicit unimplemented entry. -/
theorem opcodeTable_unimplemented {op : Byte} (h : implemented op = false) :
    opcodeTable op = ⟨.unimplemented, .unimplemented⟩ := by
  simp only [implemented, Option.isSome_eq_false_iff, Option.isNone_iff_eq_none] at h
  simp [opcodeTable, h]

/-- Everything the table lookup can lead to: no operand byte for an unimplemented opcode, and for an implemented one an
instruction made of one or two operand bytes whose encoding starts with that opcode. -/
theorem shape_cases (op : Byte) :
    (implemented op = false ∧ shapeOf op (opcodeTable op) = some (.f1 (.unimplemented op))) ∨
    (implemented op = true ∧ (opcodeTable op).mode.len = some 1 ∧
      ∃ make, shapeOf op (opcodeTable op) = some (.f2 make) ∧
        ∀ b, encode (make b) = [op, b] ∧ (make b).wf = true ∧ opcodeTable op = ⟨(make b).mnemonic, (make b).mode⟩) ∨
    (implemented op = true ∧ (opcodeTable op).mode.len = some 2 ∧
      ∃ make, shapeOf op (opcodeTable op) = some (.f3 make) ∧
        ∀ lo hi, encode (make lo hi) = [op, lo, hi] ∧ (make lo hi).wf = true ∧
          opcodeTable op = ⟨(make lo hi).mnemonic, (make lo hi).mode⟩) := by
  cases h : implemented op with
  | false => exact .inl ⟨rfl, by rw [opcodeTable_unimplemented h]; rfl⟩
  | true =>
    obtain ⟨r, hr, rfl⟩ := (implemented_iff op).mp h
    right
    simp only [opcodeRows, loadRows, storeRows, List.cons_append, List.nil_append, List.mem_cons, List.not_mem_nil,
      or_false] at hr
    rcases hr with rfl | rfl | rfl | rfl | rfl | rfl | rfl | rfl | rfl | rfl | rfl | rfl | rfl | rfl | rfl | rfl | rfl |
      rfl | rfl | rfl | rfl | rfl | rfl | rfl | rfl | rfl | rfl | rfl | rfl | rfl | rfl
    all_goals
      first
      | exact .inl ⟨rfl, rfl, _, rfl, fun _ => ⟨rfl, rfl, rfl⟩⟩
      | exact .inr ⟨rfl, rfl, _, rfl, fun _ _ => ⟨rfl, rfl, rfl⟩⟩

end Sys2Proof
end

