-- ==== Sys2Proof/Laws/Flags.lean ====
section
/-! SUPPORT. The laws of the flag unit. -/

namespace Sys2Proof.Machine

/-- Testing a flag reads its bit. -/
theorem testFlag_eq_getLsbD (f : Flag) (p : Byte) : testFlag f p = p.getLsbD f.bit := by
  revert p; cases f <;> decide

/-- A mask has its own flag's bit and no other. -/
theorem Flag.mask_getLsbD (f g : Flag) : f.mask.getLsbD g.bit = decide (g = f) := by
  cases f <;> cases g <;> rfl

theorem Flag.bit_lt (f : Flag) : f.bit < 8 := by cases f <;> decide

/-- A written flag reads back, and every other flag reads as before. -/
theorem testFlag_writeFlag (f g : Flag) (b : Bool) (p : Byte) :
    testFlag g (writeFlag f b p) = if g = f then b else testFlag g p := by
  have hm := Flag.mask_getLsbD f g
  rw [BitVec.getLsbD_eq_getElem (Flag.bit_lt g)] at hm
  by_cases h : g = f
  · subst h
    cases b <;> simp [writeFlag, setFlag, clearFlag, testFlag_eq_getLsbD, Flag.bit_lt, hm]
  · cases b <;> simp [writeFlag, setFlag, clearFlag, testFlag_eq_getLsbD, Flag.bit_lt, hm, h]

end Sys2Proof.Machine
end

