-- ==== Sys2Proof/Laws/State.lean ====
section
/-! SUPPORT. One lemma for each field and each update of the state. -/

namespace Sys2Proof.Machine

/-! ### Writing a register -/

@[simp] theorem Cpu.set_p (c : Cpu) (r : Reg) (v : Byte) : (c.set r v).p = c.p := by cases r <;> rfl
@[simp] theorem Cpu.set_sp (c : Cpu) (r : Reg) (v : Byte) : (c.set r v).sp = c.sp := by cases r <;> rfl
@[simp] theorem Cpu.set_pc (c : Cpu) (r : Reg) (v : Byte) : (c.set r v).pc = c.pc := by cases r <;> rfl
@[simp] theorem Cpu.set_loop (c : Cpu) (r : Reg) (v : Byte) : (c.set r v).loop = c.loop := by cases r <;> rfl
@[simp] theorem Cpu.get_set_same (c : Cpu) (r : Reg) (v : Byte) : (c.set r v).get r = v := by cases r <;> rfl
theorem Cpu.get_set_other (c : Cpu) {q r : Reg} (h : q ≠ r) (v : Byte) : (c.set r v).get q = c.get q := by
  cases q <;> cases r <;> first | rfl | exact absurd rfl h

/-! ### Loading a register -/

@[simp] theorem Cpu.load_p (c : Cpu) (r : Reg) (v : Byte) : (c.load r v).p = updateZN v c.p := rfl
@[simp] theorem Cpu.load_sp (c : Cpu) (r : Reg) (v : Byte) : (c.load r v).sp = c.sp := by cases r <;> rfl
@[simp] theorem Cpu.load_pc (c : Cpu) (r : Reg) (v : Byte) : (c.load r v).pc = c.pc := by cases r <;> rfl
@[simp] theorem Cpu.load_loop (c : Cpu) (r : Reg) (v : Byte) : (c.load r v).loop = c.loop := by cases r <;> rfl
@[simp] theorem Cpu.get_load_same (c : Cpu) (r : Reg) (v : Byte) : (c.load r v).get r = v := by cases r <;> rfl
theorem Cpu.get_load_other (c : Cpu) {q r : Reg} (h : q ≠ r) (v : Byte) : (c.load r v).get q = c.get q := by
  cases q <;> cases r <;> first | rfl | exact absurd rfl h

/-! ### Advancing PC -/

@[simp] theorem Cpu.advance_a (c : Cpu) (n : Nat) : (c.advance n).a = c.a := rfl
@[simp] theorem Cpu.advance_x (c : Cpu) (n : Nat) : (c.advance n).x = c.x := rfl
@[simp] theorem Cpu.advance_y (c : Cpu) (n : Nat) : (c.advance n).y = c.y := rfl
@[simp] theorem Cpu.advance_p (c : Cpu) (n : Nat) : (c.advance n).p = c.p := rfl
@[simp] theorem Cpu.advance_sp (c : Cpu) (n : Nat) : (c.advance n).sp = c.sp := rfl
@[simp] theorem Cpu.advance_pc (c : Cpu) (n : Nat) : (c.advance n).pc = c.pc + BitVec.ofNat 16 n := rfl
@[simp] theorem Cpu.advance_loop (c : Cpu) (n : Nat) : (c.advance n).loop = c.loop := rfl
@[simp] theorem Cpu.advance_get (c : Cpu) (n : Nat) (r : Reg) : (c.advance n).get r = c.get r := by cases r <;> rfl

theorem Cpu.advance_advance (c : Cpu) (m n : Nat) : (c.advance m).advance n = c.advance (m + n) := by
  simp [Cpu.advance, BitVec.add_assoc, BitVec.ofNat_add]

/-! ### Writing a byte -/

@[simp] theorem State.writeByte_cpu (s : State) (a : Word) (v : Byte) : (s.writeByte a v).cpu = s.cpu := rfl
@[simp] theorem State.writeByte_mem (s : State) (a : Word) (v : Byte) :
    (s.writeByte a v).mem = Memory.write s.mem a.toNat v := rfl

/-- Replacing the processor state leaves every byte alone. -/
@[simp] theorem State.readByte_cpu (s : State) (c : Cpu) (a : Word) :
    State.readByte { s with cpu := c } a = s.readByte a := rfl

/-! ### Launch and reset -/

@[simp] theorem State.launch_a (a x y p sp : Byte) (pc : Word) (m : Memory) : (State.launch a x y p sp pc m).cpu.a = a := rfl
@[simp] theorem State.launch_x (a x y p sp : Byte) (pc : Word) (m : Memory) : (State.launch a x y p sp pc m).cpu.x = x := rfl
@[simp] theorem State.launch_y (a x y p sp : Byte) (pc : Word) (m : Memory) : (State.launch a x y p sp pc m).cpu.y = y := rfl
@[simp] theorem State.launch_p (a x y p sp : Byte) (pc : Word) (m : Memory) : (State.launch a x y p sp pc m).cpu.p = p := rfl
@[simp] theorem State.launch_sp (a x y p sp : Byte) (pc : Word) (m : Memory) :
    (State.launch a x y p sp pc m).cpu.sp = sp := rfl
@[simp] theorem State.launch_pc (a x y p sp : Byte) (pc : Word) (m : Memory) :
    (State.launch a x y p sp pc m).cpu.pc = pc := rfl
@[simp] theorem State.launch_mem (a x y p sp : Byte) (pc : Word) (m : Memory) :
    (State.launch a x y p sp pc m).mem = m := rfl

end Sys2Proof.Machine
end

