-- ==== Sys2Proof/Laws/Loop.lean ====
section
/-! SUPPORT. The staged computations of the loop, one equation for each. -/

namespace Sys2Proof.Machine

variable {S α β : Type}

@[simp] theorem stagedPure_apply (v : α) (c : Cpu) (s : S) : stagedPure v c s = (.ok (v, c), s) := rfl
@[simp] theorem stagedCpu_apply (c : Cpu) (s : S) : stagedCpu c s = (.ok (c, c), s) := rfl
@[simp] theorem stagedModify_apply (g : Cpu → Cpu) (c : Cpu) (s : S) : stagedModify g c s = (.ok ((), g c), s) := rfl
@[simp] theorem stagedRaise_apply (f : Fault) (c : Cpu) (s : S) : (stagedRaise f : Staged S α) c s = (.error f, s) := rfl

theorem stagedBind_ok {m : Staged S α} {k : α → Staged S β} {c c' : Cpu} {s s' : S} {v : α}
    (h : m c s = (.ok (v, c'), s')) : stagedBind m k c s = k v c' s' := by
  simp [stagedBind, h]

theorem stagedBind_error {m : Staged S α} {k : α → Staged S β} {c : Cpu} {s s' : S} {f : Fault}
    (h : m c s = (.error f, s')) : stagedBind m k c s = (.error f, s') := by
  simp [stagedBind, h]

/-- If the whole completes, the first part did, and the second from where the first ended. -/
theorem stagedBind_eq_ok {m : Staged S α} {k : α → Staged S β} {c c' : Cpu} {s s' : S} {w : β}
    (h : stagedBind m k c s = (.ok (w, c'), s')) :
    ∃ v c₁ s₁, m c s = (.ok (v, c₁), s₁) ∧ k v c₁ s₁ = (.ok (w, c'), s') := by
  unfold stagedBind at h
  split at h
  · exact ⟨_, _, _, ‹_›, h⟩
  · simp at h

/-- If the whole faults, the first part did, or it completed and the second did. -/
theorem stagedBind_eq_error {m : Staged S α} {k : α → Staged S β} {c : Cpu} {s s' : S} {f : Fault}
    (h : stagedBind m k c s = (.error f, s')) :
    m c s = (.error f, s') ∨ ∃ v c₁ s₁, m c s = (.ok (v, c₁), s₁) ∧ k v c₁ s₁ = (.error f, s') := by
  unfold stagedBind at h
  split at h
  · exact .inr ⟨_, _, _, ‹_›, h⟩
  · simp only [Prod.mk.injEq, Except.error.injEq] at h
    obtain ⟨rfl, rfl⟩ := h
    exact .inl ‹_›

/-- A bus read changes no register. -/
theorem memRead_cpu {bus : Bus S} {a : Word} {c c' : Cpu} {s s' : S} {v : Byte}
    (h : memRead bus a c s = (.ok (v, c'), s')) : c' = c := by
  unfold memRead at h
  split at h <;> simp_all

/-- On the reference bus a read answers the byte there. -/
@[simp] theorem memRead_reference (a : Word) (c : Cpu) (m : Memory) :
    memRead referenceBus a c m = (.ok (Memory.read m a.toNat, c), m) := rfl

/-- On the reference bus a write replaces the byte there. -/
@[simp] theorem memWrite_reference (a : Word) (v : Byte) (c : Cpu) (m : Memory) :
    memWrite referenceBus a v c m = (.ok ((), c), Memory.write m a.toNat v) := rfl

end Sys2Proof.Machine
end

