-- ==== Sys2Proof/Laws/Memory.lean ====
section
/-! SUPPORT. The laws of the memory list: read after write, the canonical form kept, equal reads make equal memories. -/

namespace Sys2Proof.Machine

@[simp] theorem Memory.read_nil (a : Nat) : Memory.read [] a = Memory.unlisted := rfl
@[simp] theorem Memory.wf_nil : Memory.wf [] = true := rfl

theorem Memory.wf_cons {k : Nat} {w : Byte} {m : Memory} :
    Memory.wf ((k, w) :: m) = true ↔
      k < 65536 ∧ w ≠ Memory.unlisted ∧ (∀ c ∈ m, k < c.1) ∧ Memory.wf m = true := by
  simp [Memory.wf, and_assoc]

/-- An address that no entry lists reads as the unlisted byte. -/
theorem Memory.read_of_not_listed {m : Memory} {a : Nat} (h : ∀ c ∈ m, c.1 ≠ a) :
    Memory.read m a = Memory.unlisted := by
  induction m with
  | nil => rfl
  | cons c m ih =>
    have hne : a ≠ c.1 := fun e => h c (by simp) e.symm
    simp only [Memory.read, if_neg hne]
    exact ih fun d hd => h d (by simp [hd])

/-- A write leaves every other address alone, whatever the list. -/
theorem Memory.read_write_other (m : Memory) {a b : Nat} (v : Byte) (h : b ≠ a) :
    Memory.read (Memory.write m a v) b = Memory.read m b := by
  induction m with
  | nil => simp only [Memory.write]; split <;> simp [Memory.read, h]
  | cons c m ih =>
    obtain ⟨k, w⟩ := c
    by_cases hlt : a < k
    · simp only [Memory.write, if_pos hlt]
      split <;> simp [Memory.read, h]
    · by_cases he : a = k
      · subst he
        simp only [Memory.write, if_neg hlt]
        simp only [if_true]
        split <;> simp [Memory.read, h]
      · simp only [Memory.write, if_neg hlt, if_neg he, Memory.read, ih]

/-- In canonical form a written byte is read back. -/
theorem Memory.read_write_same {m : Memory} (hm : Memory.wf m = true) (a : Nat) (v : Byte) :
    Memory.read (Memory.write m a v) a = v := by
  induction m with
  | nil => simp only [Memory.write]; split <;> simp_all [Memory.read]
  | cons c m ih =>
    obtain ⟨k, w⟩ := c
    obtain ⟨-, -, hk, hwf⟩ := Memory.wf_cons.mp hm
    by_cases hlt : a < k
    · have hout : Memory.read ((k, w) :: m) a = Memory.unlisted := by
        refine Memory.read_of_not_listed fun d hd => ?_
        rcases List.mem_cons.mp hd with rfl | hd
        · exact Nat.ne_of_gt hlt
        · exact Nat.ne_of_gt (Nat.lt_trans hlt (hk d hd))
      simp only [Memory.write, if_pos hlt]
      split
      · next hv => rw [hout, hv]
      · simp [Memory.read]
    · by_cases he : a = k
      · subst he
        simp only [Memory.write, if_neg hlt, if_true]
        split
        · next hv =>
          rw [Memory.read_of_not_listed fun d hd => Nat.ne_of_gt (hk d hd), hv]
        · simp [Memory.read]
      · simp only [Memory.write, if_neg hlt, if_neg he, Memory.read, ih hwf]

/-- The entries after a write: old ones, or the written address. -/
theorem Memory.mem_write {m : Memory} {a : Nat} {v : Byte} {c : Host.Cell} (h : c ∈ Memory.write m a v) :
    c = (a, v) ∨ c ∈ m := by
  induction m with
  | nil =>
    simp only [Memory.write] at h
    split at h <;> simp_all
  | cons d m ih =>
    obtain ⟨k, w⟩ := d
    by_cases hlt : a < k
    · simp only [Memory.write, if_pos hlt] at h
      split at h <;> simp_all
    · by_cases he : a = k
      · subst he
        simp only [Memory.write, if_neg hlt, if_true] at h
        split at h
        · exact .inr (by simp [h])
        · rcases List.mem_cons.mp h with h | h
          · exact .inl h
          · exact .inr (by simp [h])
      · simp only [Memory.write, if_neg hlt, if_neg he] at h
        rcases List.mem_cons.mp h with h | h
        · exact .inr (by simp [h])
        · rcases ih h with h | h
          · exact .inl h
          · exact .inr (by simp [h])

/-- A write below 65536 keeps the canonical form. -/
theorem Memory.wf_write {m : Memory} (hm : Memory.wf m = true) {a : Nat} (ha : a < 65536) (v : Byte) :
    Memory.wf (Memory.write m a v) = true := by
  induction m with
  | nil =>
    simp only [Memory.write]
    split
    · rfl
    · next hv => exact Memory.wf_cons.mpr ⟨ha, hv, by simp, rfl⟩
  | cons c m ih =>
    obtain ⟨k, w⟩ := c
    obtain ⟨hk65, hw, hk, hwf⟩ := Memory.wf_cons.mp hm
    by_cases hlt : a < k
    · simp only [Memory.write, if_pos hlt]
      split
      · exact hm
      · next hv =>
        refine Memory.wf_cons.mpr ⟨ha, hv, fun d hd => ?_, hm⟩
        rcases List.mem_cons.mp hd with rfl | hd
        · exact hlt
        · exact Nat.lt_trans hlt (hk d hd)
    · by_cases he : a = k
      · subst he
        simp only [Memory.write, if_neg hlt, if_true]
        split
        · exact hwf
        · next hv => exact Memory.wf_cons.mpr ⟨ha, hv, hk, hwf⟩
      · simp only [Memory.write, if_neg hlt, if_neg he]
        refine Memory.wf_cons.mpr ⟨hk65, hw, fun d hd => ?_, ih hwf⟩
        rcases Memory.mem_write hd with rfl | hd
        · exact Nat.lt_of_le_of_ne (Nat.le_of_not_lt hlt) (Ne.symm he)
        · exact hk d hd

end Sys2Proof.Machine
end

