-- ==== Sys2Proof/Laws/Ops.lean ====
section
/-! SUPPORT. What the shared operations and an instruction can do, said once. -/

namespace Sys2Proof.Machine

/-- The reset memory is in canonical form. -/
theorem State.reset_mem_wf : Memory.wf State.reset.mem = true := rfl

/-- Writing one byte keeps the canonical form. -/
theorem State.writeByte_wf {s : State} (h : Memory.wf s.mem = true) (a : Word) (v : Byte) :
    Memory.wf (s.writeByte a v).mem = true := Memory.wf_write h a.isLt v

/-- A written byte is read back. -/
theorem State.readByte_writeByte_same {s : State} (h : Memory.wf s.mem = true) (a : Word) (v : Byte) :
    (s.writeByte a v).readByte a = v := Memory.read_write_same h a.toNat v

/-- Writing one byte leaves every other byte alone. -/
theorem State.readByte_writeByte_other (s : State) {a b : Word} (v : Byte) (h : b ≠ a) :
    (s.writeByte a v).readByte b = s.readByte b :=
  Memory.read_write_other s.mem v fun e => h (BitVec.eq_of_toNat_eq e)

/-- Placing a table word keeps the canonical form. -/
theorem placeWord_wf {s : State} (h : Memory.wf s.mem = true) (nbits w : Nat) :
    Memory.wf (placeWord s nbits w).mem = true :=
  State.writeByte_wf (State.writeByte_wf (State.writeByte_wf h _ _) _ _) _ _

/-- Taking a fault answers the same state with the loop Faulted. -/
theorem raiseFault_eq (f : Fault) (s : State) :
    raiseFault f s = .next { s with cpu := { s.cpu with loop := .faulted f } } := rfl

/-- A load answers a next state that differs in the processor state alone. -/
theorem loadByte_eq (r : Reg) (v : Byte) (n : Nat) (s : State) :
    loadByte r v n s = .next { s with cpu := (s.cpu.load r v).advance n } := rfl

/-- A store answers a next state that differs in PC and in the byte at the effective address alone. -/
theorem storeMem_eq (r : Reg) (o : MemOperand) (s : State) :
    storeMem r o s = .next { s.writeByte (o.addr s) (s.cpu.get r) with cpu := s.cpu.advance o.bytes } := rfl

/-- Everything an instruction can do: load a byte into a register, store a register at an operand's address, or take
UnimplementedOpcode. -/
theorem exec_cases (i : Instr) (s : State) :
    (∃ r v, exec i s = loadByte r v (encode i).length s) ∨
    (∃ r o, exec i s = storeMem r o s ∧ o.bytes = (encode i).length) ∨
    (∃ op, i = .unimplemented op ∧ exec i s = raiseFault (.unimplementedOpcode op s.cpu.pc) s) := by
  cases i with
  | unimplemented op => exact .inr (.inr ⟨op, rfl, rfl⟩)
  | staZp | staZpX | staAbs | staAbsX | staAbsY | staIndX | staIndY | stxZp | stxZpY | stxAbs | styZp | styZpX | styAbs =>
    exact .inr (.inl ⟨_, _, rfl, rfl⟩)
  | ldaImm | ldaZp | ldaZpX | ldaAbs | ldaAbsX | ldaAbsY | ldaIndX | ldaIndY | ldxImm | ldxZp | ldxZpY | ldxAbs | ldxAbsY
  | ldyImm | ldyZp | ldyZpX | ldyAbs | ldyAbsX =>
    exact .inl ⟨_, _, rfl⟩

/-- A step in Running is the instruction at PC. -/
theorem step_running {s : State} (h : s.cpu.loop = .running) : step s = exec (fetchInstr s) s := by
  simp [step, h]

/-- A step in Halted answers the same state. -/
theorem step_halted {s : State} (h : s.cpu.loop = .halted) : step s = .next s := by
  simp [step, h, haltedStep]

/-- There is no step in Faulted. -/
theorem step_faulted {s : State} {f : Fault} (h : s.cpu.loop = .faulted f) : step s = .fault f := by
  simp [step, h, faultedStep]

end Sys2Proof.Machine
end

