-- ==== Sys2Proof/Laws/PerInstr.lean ====
section
/-! SUPPORT. Statements about every instruction as syntax, one lemma for each constructor. -/

namespace Sys2Proof.Laws.EncodedRow

/-- A well-formed instruction's bytes are an opcode byte whose table entry is the instruction's mnemonic and mode, and as
many operand bytes as that mode's length; an unimplemented opcode is one byte (R53, R58, R62). -/
def Statement (i : Instr) : Prop :=
  i.wf = true → ∃ op operands, encode i = op :: operands ∧ opcodeTable op = ⟨i.mnemonic, i.mode⟩ ∧
    operands.length = i.mode.len.getD 0

theorem ldaImm (b : Byte) : Statement (.ldaImm b) := fun _ => ⟨_, _, rfl, rfl, rfl⟩
theorem ldaZp (b : Byte) : Statement (.ldaZp b) := fun _ => ⟨_, _, rfl, rfl, rfl⟩
theorem ldaZpX (b : Byte) : Statement (.ldaZpX b) := fun _ => ⟨_, _, rfl, rfl, rfl⟩
theorem ldaAbs (lo hi : Byte) : Statement (.ldaAbs lo hi) := fun _ => ⟨_, _, rfl, rfl, rfl⟩
theorem ldaAbsX (lo hi : Byte) : Statement (.ldaAbsX lo hi) := fun _ => ⟨_, _, rfl, rfl, rfl⟩
theorem ldaAbsY (lo hi : Byte) : Statement (.ldaAbsY lo hi) := fun _ => ⟨_, _, rfl, rfl, rfl⟩
theorem ldaIndX (b : Byte) : Statement (.ldaIndX b) := fun _ => ⟨_, _, rfl, rfl, rfl⟩
theorem ldaIndY (b : Byte) : Statement (.ldaIndY b) := fun _ => ⟨_, _, rfl, rfl, rfl⟩
theorem ldxImm (b : Byte) : Statement (.ldxImm b) := fun _ => ⟨_, _, rfl, rfl, rfl⟩
theorem ldxZp (b : Byte) : Statement (.ldxZp b) := fun _ => ⟨_, _, rfl, rfl, rfl⟩
theorem ldxZpY (b : Byte) : Statement (.ldxZpY b) := fun _ => ⟨_, _, rfl, rfl, rfl⟩
theorem ldxAbs (lo hi : Byte) : Statement (.ldxAbs lo hi) := fun _ => ⟨_, _, rfl, rfl, rfl⟩
theorem ldxAbsY (lo hi : Byte) : Statement (.ldxAbsY lo hi) := fun _ => ⟨_, _, rfl, rfl, rfl⟩
theorem ldyImm (b : Byte) : Statement (.ldyImm b) := fun _ => ⟨_, _, rfl, rfl, rfl⟩
theorem ldyZp (b : Byte) : Statement (.ldyZp b) := fun _ => ⟨_, _, rfl, rfl, rfl⟩
theorem ldyZpX (b : Byte) : Statement (.ldyZpX b) := fun _ => ⟨_, _, rfl, rfl, rfl⟩
theorem ldyAbs (lo hi : Byte) : Statement (.ldyAbs lo hi) := fun _ => ⟨_, _, rfl, rfl, rfl⟩
theorem ldyAbsX (lo hi : Byte) : Statement (.ldyAbsX lo hi) := fun _ => ⟨_, _, rfl, rfl, rfl⟩
theorem staZp (b : Byte) : Statement (.staZp b) := fun _ => ⟨_, _, rfl, rfl, rfl⟩
theorem staZpX (b : Byte) : Statement (.staZpX b) := fun _ => ⟨_, _, rfl, rfl, rfl⟩
theorem staAbs (lo hi : Byte) : Statement (.staAbs lo hi) := fun _ => ⟨_, _, rfl, rfl, rfl⟩
theorem staAbsX (lo hi : Byte) : Statement (.staAbsX lo hi) := fun _ => ⟨_, _, rfl, rfl, rfl⟩
theorem staAbsY (lo hi : Byte) : Statement (.staAbsY lo hi) := fun _ => ⟨_, _, rfl, rfl, rfl⟩
theorem staIndX (b : Byte) : Statement (.staIndX b) := fun _ => ⟨_, _, rfl, rfl, rfl⟩
theorem staIndY (b : Byte) : Statement (.staIndY b) := fun _ => ⟨_, _, rfl, rfl, rfl⟩
theorem stxZp (b : Byte) : Statement (.stxZp b) := fun _ => ⟨_, _, rfl, rfl, rfl⟩
theorem stxZpY (b : Byte) : Statement (.stxZpY b) := fun _ => ⟨_, _, rfl, rfl, rfl⟩
theorem stxAbs (lo hi : Byte) : Statement (.stxAbs lo hi) := fun _ => ⟨_, _, rfl, rfl, rfl⟩
theorem styZp (b : Byte) : Statement (.styZp b) := fun _ => ⟨_, _, rfl, rfl, rfl⟩
theorem styZpX (b : Byte) : Statement (.styZpX b) := fun _ => ⟨_, _, rfl, rfl, rfl⟩
theorem styAbs (lo hi : Byte) : Statement (.styAbs lo hi) := fun _ => ⟨_, _, rfl, rfl, rfl⟩
theorem unimplemented (opcode : Byte) : Statement (.unimplemented opcode) := by
  intro h
  refine ⟨opcode, [], rfl, ?_, rfl⟩
  simp only [Instr.wf, implemented, Bool.not_eq_true', Option.isSome_eq_false_iff, Option.isNone_iff_eq_none] at h
  simp only [opcodeTable, h, Instr.mnemonic, Instr.mode]

end Sys2Proof.Laws.EncodedRow
end

