-- ==== Sys2Proof/Tests/Slice0.lean ====
section
/-! SUPPORT. Tests: every expected result is from spec/95_test_vectors.md or from the encodings and rules named. -/

namespace Sys2Proof.Tests
open Sys2Proof.Machine Sys2Proof.Claims

/-- The start state of the vectors: P = 0x24, SP = 0xFD, the other values given, memory by address and byte. -/
def boot (a x y : Byte) (pc : Word) (bytes : List (Nat × Byte)) : State :=
  State.launch a x y 0x24 0xFD pc (bytes.foldl (fun m c => Memory.write m c.1 c.2) [])

/-- Whether one step answers a next state with the property. -/
def after (s : State) (p : State → Bool) : Bool :=
  match step s with
  | .next t => p t
  | .fault _ | .refused _ => false

/-! ### The well-formedness check -/

theorem test_wf_refuses_an_implemented_opcode : (Instr.unimplemented 0xA9).wf = false := by decide
theorem test_wf_accepts_brk : (Instr.unimplemented 0x00).wf = true := by decide

/-! ### Decoding, every constructor: the words are the Encoding lines of R102 to R119 and R125 to R137, with the operand
bytes of each rule's Example; the first word of each family in bits (R54: operand bits above the opcode's) -/

theorem test_decode_lda :
    decodeTableWord 16 0b10000000_10101001 = some (.ldaImm 0x80) ∧
    decodeTableWord 16 0x10A5 = some (.ldaZp 0x10) ∧
    decodeTableWord 16 0xFEB5 = some (.ldaZpX 0xFE) ∧
    decodeTableWord 24 0x1234AD = some (.ldaAbs 0x34 0x12) ∧
    decodeTableWord 24 0x12FEBD = some (.ldaAbsX 0xFE 0x12) ∧
    decodeTableWord 24 0x12FEB9 = some (.ldaAbsY 0xFE 0x12) ∧
    decodeTableWord 16 0x20A1 = some (.ldaIndX 0x20) ∧
    decodeTableWord 16 0x40B1 = some (.ldaIndY 0x40) := by decide
theorem test_decode_ldx :
    decodeTableWord 16 0b00000000_10100010 = some (.ldxImm 0x00) ∧
    decodeTableWord 16 0x10A6 = some (.ldxZp 0x10) ∧
    decodeTableWord 16 0xFEB6 = some (.ldxZpY 0xFE) ∧
    decodeTableWord 24 0x1234AE = some (.ldxAbs 0x34 0x12) ∧
    decodeTableWord 24 0x12FEBE = some (.ldxAbsY 0xFE 0x12) := by decide
theorem test_decode_ldy :
    decodeTableWord 16 0b01111111_10100000 = some (.ldyImm 0x7F) ∧
    decodeTableWord 16 0x10A4 = some (.ldyZp 0x10) ∧
    decodeTableWord 16 0xFEB4 = some (.ldyZpX 0xFE) ∧
    decodeTableWord 24 0x1234AC = some (.ldyAbs 0x34 0x12) ∧
    decodeTableWord 24 0x12FEBC = some (.ldyAbsX 0xFE 0x12) := by decide
theorem test_decode_sta :
    decodeTableWord 16 0b00010000_10000101 = some (.staZp 0x10) ∧
    decodeTableWord 16 0xFE95 = some (.staZpX 0xFE) ∧
    decodeTableWord 24 0x12348D = some (.staAbs 0x34 0x12) ∧
    decodeTableWord 24 0x12FE9D = some (.staAbsX 0xFE 0x12) ∧
    decodeTableWord 24 0x12FE99 = some (.staAbsY 0xFE 0x12) ∧
    decodeTableWord 16 0x2081 = some (.staIndX 0x20) ∧
    decodeTableWord 16 0x4091 = some (.staIndY 0x40) := by decide
theorem test_decode_stx :
    decodeTableWord 16 0b00010000_10000110 = some (.stxZp 0x10) ∧
    decodeTableWord 16 0xFE96 = some (.stxZpY 0xFE) ∧
    decodeTableWord 24 0x12348E = some (.stxAbs 0x34 0x12) := by decide
theorem test_decode_sty :
    decodeTableWord 16 0b00010000_10000100 = some (.styZp 0x10) ∧
    decodeTableWord 16 0xFE94 = some (.styZpX 0xFE) ∧
    decodeTableWord 24 0x12348C = some (.styAbs 0x34 0x12) := by decide
theorem test_decode_unimplemented :
    decodeTableWord 8 0b00000000 = some (.unimplemented 0x00) ∧
    decodeTableWord 8 0xEA = some (.unimplemented 0xEA) ∧
    decodeTableWord 8 0x89 = some (.unimplemented 0x89) := by decide
theorem test_decode_rejects_a_missing_operand :
    (match decode [0xAD#8, 0x34#8] with | .error e => e == .missingOperand 0xAD | .ok _ => false) = true := by decide
theorem test_symbolic_names :
    symbolicName 0xA9 = some "LDA_IMM" ∧ symbolicName 0x85 = some "STA_ZP" ∧ symbolicName 0x00 = none := by decide

/-! ### Loads and stores: the vectors of section 4, by their numbers -/

theorem test_V_L_1 : after (boot 0xAA 0xBB 0xCC 0x8000 [(0x8000, 0xA9), (0x8001, 0x00)])
    (fun t => t.cpu.a == 0x00 && t.cpu.p == 0x26 && t.cpu.pc == 0x8002) = true := by decide
theorem test_V_L_3 : after (boot 0xAA 0xBB 0xCC 0x8000 [(0x8000, 0xA5), (0x8001, 0xFF), (0x00FF, 0x01)])
    (fun t => t.cpu.a == 0x01 && t.cpu.p == 0x24 && t.cpu.pc == 0x8002) = true := by decide
theorem test_V_L_4 : after (boot 0xAA 0x01 0xCC 0x8000 [(0x8000, 0xB5), (0x8001, 0xFF), (0x0000, 0x80)])
    (fun t => t.cpu.a == 0x80 && t.cpu.p == 0xA4 && t.cpu.pc == 0x8002) = true := by decide
theorem test_V_L_5 : after (boot 0xAA 0xFF 0xCC 0x8000 [(0x8000, 0xB5), (0x8001, 0x80), (0x007F, 0x7F)])
    (fun t => t.cpu.a == 0x7F && t.cpu.p == 0x24 && t.cpu.pc == 0x8002) = true := by decide
theorem test_V_L_6 : after (boot 0xAA 0xBB 0xCC 0x8000 [(0x8000, 0xAD), (0x8001, 0xFF), (0x8002, 0x00), (0x00FF, 0x00)])
    (fun t => t.cpu.a == 0x00 && t.cpu.p == 0x26 && t.cpu.pc == 0x8003) = true := by decide
theorem test_V_L_7 : after (boot 0xAA 0x01 0xCC 0x8000 [(0x8000, 0xBD), (0x8001, 0xFF), (0x8002, 0x12), (0x1300, 0x90)])
    (fun t => t.cpu.a == 0x90 && t.cpu.p == 0xA4 && t.cpu.pc == 0x8003) = true := by decide
theorem test_V_L_8 : after (boot 0xAA 0x01 0xCC 0x8000 [(0x8000, 0xBD), (0x8001, 0xFF), (0x8002, 0xFF), (0x0000, 0x00)])
    (fun t => t.cpu.a == 0x00 && t.cpu.p == 0x26 && t.cpu.pc == 0x8003) = true := by decide
theorem test_V_L_9 : after (boot 0xAA 0xBB 0x20 0x8000 [(0x8000, 0xB9), (0x8001, 0xF0), (0x8002, 0xFF), (0x0010, 0x55)])
    (fun t => t.cpu.a == 0x55 && t.cpu.p == 0x24 && t.cpu.pc == 0x8003) = true := by decide
theorem test_V_L_10 : after (boot 0xAA 0x01 0xCC 0x8000 [(0x8000, 0xA1), (0x8001, 0xFF), (0x0000, 0x34), (0x0001, 0x12), (0x1234, 0xC0)])
    (fun t => t.cpu.a == 0xC0 && t.cpu.p == 0xA4 && t.cpu.pc == 0x8002) = true := by decide
theorem test_V_L_11 : after (boot 0xAA 0x01 0xCC 0x8000 [(0x8000, 0xA1), (0x8001, 0xFE), (0x0000, 0x20), (0x00FF, 0x00), (0x2000, 0x01)])
    (fun t => t.cpu.a == 0x01 && t.cpu.p == 0x24 && t.cpu.pc == 0x8002) = true := by decide
theorem test_V_L_12 : after (boot 0xAA 0xBB 0x01 0x8000 [(0x8000, 0xB1), (0x8001, 0x10), (0x0010, 0xFF), (0x0011, 0x12), (0x1300, 0x00)])
    (fun t => t.cpu.a == 0x00 && t.cpu.p == 0x26 && t.cpu.pc == 0x8002) = true := by decide
theorem test_V_L_14 : after (boot 0xAA 0xBB 0x00 0x8000 [(0x8000, 0xB1), (0x8001, 0xFF), (0x0000, 0x40), (0x00FF, 0x00), (0x4000, 0x7F)])
    (fun t => t.cpu.a == 0x7F && t.cpu.p == 0x24 && t.cpu.pc == 0x8002) = true := by decide
theorem test_V_L_15 : after (boot 0xAA 0xBB 0xCC 0xFFFF [(0xFFFF, 0xA9), (0x0000, 0x42)])
    (fun t => t.cpu.a == 0x42 && t.cpu.p == 0x24 && t.cpu.pc == 0x0001) = true := by decide
theorem test_V_L_16 : after (boot 0xAA 0xBB 0xCC 0x8000 [(0x8000, 0xA2), (0x8001, 0x80)])
    (fun t => t.cpu.x == 0x80 && t.cpu.p == 0xA4 && t.cpu.pc == 0x8002) = true := by decide
theorem test_V_L_17 : after (boot 0xAA 0xBB 0xCC 0x8000 [(0x8000, 0xA6), (0x8001, 0x00), (0x0000, 0x00)])
    (fun t => t.cpu.x == 0x00 && t.cpu.p == 0x26 && t.cpu.pc == 0x8002) = true := by decide
theorem test_V_L_18 : after (boot 0xAA 0xBB 0x20 0x8000 [(0x8000, 0xB6), (0x8001, 0xF0), (0x0010, 0xFE)])
    (fun t => t.cpu.x == 0xFE && t.cpu.p == 0xA4 && t.cpu.pc == 0x8002) = true := by decide
theorem test_V_L_19 : after (boot 0xAA 0xBB 0xCC 0x8000 [(0x8000, 0xAE), (0x8001, 0x00), (0x8002, 0x02), (0x0200, 0x7F)])
    (fun t => t.cpu.x == 0x7F && t.cpu.p == 0x24 && t.cpu.pc == 0x8003) = true := by decide
theorem test_V_L_20 : after (boot 0xAA 0xBB 0x10 0x8000 [(0x8000, 0xBE), (0x8001, 0xF0), (0x8002, 0x02), (0x0300, 0x00)])
    (fun t => t.cpu.x == 0x00 && t.cpu.p == 0x26 && t.cpu.pc == 0x8003) = true := by decide
theorem test_V_L_21 : after (boot 0xAA 0xBB 0xCC 0x8000 [(0x8000, 0xA0), (0x8001, 0x01)])
    (fun t => t.cpu.y == 0x01 && t.cpu.p == 0x24 && t.cpu.pc == 0x8002) = true := by decide
theorem test_V_L_22 : after (boot 0xAA 0xBB 0xCC 0x8000 [(0x8000, 0xA4), (0x8001, 0x42), (0x0042, 0x80)])
    (fun t => t.cpu.y == 0x80 && t.cpu.p == 0xA4 && t.cpu.pc == 0x8002) = true := by decide
theorem test_V_L_23 : after (boot 0xAA 0x50 0xCC 0x8000 [(0x8000, 0xB4), (0x8001, 0xC0), (0x0010, 0x00)])
    (fun t => t.cpu.y == 0x00 && t.cpu.p == 0x26 && t.cpu.pc == 0x8002) = true := by decide
theorem test_V_L_24 : after (boot 0xAA 0xBB 0xCC 0x8000 [(0x8000, 0xAC), (0x8001, 0xFF), (0x8002, 0xFF), (0xFFFF, 0x99)])
    (fun t => t.cpu.y == 0x99 && t.cpu.p == 0xA4 && t.cpu.pc == 0x8003) = true := by decide
theorem test_V_L_25 : after (boot 0xAA 0x80 0xCC 0x8000 [(0x8000, 0xBC), (0x8001, 0x80), (0x8002, 0xFF), (0x0000, 0x3C)])
    (fun t => t.cpu.y == 0x3C && t.cpu.p == 0x24 && t.cpu.pc == 0x8003) = true := by decide
theorem test_V_S_26 : after (boot 0x00 0xBB 0xCC 0x8000 [(0x8000, 0x85), (0x8001, 0x00)])
    (fun t => t.readByte 0x0000 == 0x00 && t.cpu.p == 0x24 && t.cpu.pc == 0x8002) = true := by decide
theorem test_V_S_27 : after (boot 0x80 0x02 0xCC 0x8000 [(0x8000, 0x95), (0x8001, 0xFF)])
    (fun t => t.readByte 0x0001 == 0x80 && t.cpu.p == 0x24 && t.cpu.pc == 0x8002) = true := by decide
theorem test_V_S_28 : after (boot 0x5A 0xBB 0xCC 0x8000 [(0x8000, 0x8D), (0x8001, 0x01), (0x8002, 0x80)])
    (fun t => t.readByte 0x8001 == 0x5A && t.cpu.p == 0x24 && t.cpu.pc == 0x8003) = true := by decide
theorem test_V_S_29 : after (boot 0x01 0x01 0xCC 0x8000 [(0x8000, 0x9D), (0x8001, 0xFF), (0x8002, 0x12)])
    (fun t => t.readByte 0x1300 == 0x01 && t.cpu.p == 0x24 && t.cpu.pc == 0x8003) = true := by decide
theorem test_V_S_30 : after (boot 0x02 0xBB 0x02 0x8000 [(0x8000, 0x99), (0x8001, 0xFF), (0x8002, 0xFF)])
    (fun t => t.readByte 0x0001 == 0x02 && t.cpu.p == 0x24 && t.cpu.pc == 0x8003) = true := by decide
theorem test_V_S_31 : after (boot 0x03 0xF0 0xCC 0x8000 [(0x8000, 0x81), (0x8001, 0x10), (0x0000, 0x00), (0x0001, 0x06)])
    (fun t => t.readByte 0x0600 == 0x03 && t.cpu.p == 0x24 && t.cpu.pc == 0x8002) = true := by decide
theorem test_V_S_32 : after (boot 0x04 0xBB 0x05 0x8000 [(0x8000, 0x91), (0x8001, 0xFF), (0x0000, 0x07), (0x00FF, 0x00)])
    (fun t => t.readByte 0x0705 == 0x04 && t.cpu.p == 0x24 && t.cpu.pc == 0x8002) = true := by decide
theorem test_V_S_33 : after (boot 0xAA 0xFF 0xCC 0x8000 [(0x8000, 0x86), (0x8001, 0x80)])
    (fun t => t.readByte 0x0080 == 0xFF && t.cpu.p == 0x24 && t.cpu.pc == 0x8002) = true := by decide
theorem test_V_S_34 : after (boot 0xAA 0x11 0xFF 0x8000 [(0x8000, 0x96), (0x8001, 0xFF)])
    (fun t => t.readByte 0x00FE == 0x11 && t.cpu.p == 0x24 && t.cpu.pc == 0x8002) = true := by decide
theorem test_V_S_35 : after (boot 0xAA 0x22 0xCC 0x8000 [(0x8000, 0x8E), (0x8001, 0x00), (0x8002, 0x01)])
    (fun t => t.readByte 0x0100 == 0x22 && t.cpu.p == 0x24 && t.cpu.pc == 0x8003) = true := by decide
theorem test_V_S_36 : after (boot 0xAA 0xBB 0x33 0x8000 [(0x8000, 0x84), (0x8001, 0x01)])
    (fun t => t.readByte 0x0001 == 0x33 && t.cpu.p == 0x24 && t.cpu.pc == 0x8002) = true := by decide
theorem test_V_S_37 : after (boot 0xAA 0x7F 0x44 0x8000 [(0x8000, 0x94), (0x8001, 0x81)])
    (fun t => t.readByte 0x0000 == 0x44 && t.cpu.p == 0x24 && t.cpu.pc == 0x8002) = true := by decide
theorem test_V_S_38 : after (boot 0xAA 0xBB 0x55 0x8000 [(0x8000, 0x8C), (0x8001, 0xFE), (0x8002, 0xFF)])
    (fun t => t.readByte 0xFFFE == 0x55 && t.cpu.p == 0x24 && t.cpu.pc == 0x8003) = true := by decide

/-! ### Faults and loop states: the vectors of section 5 -/

/-- A bus that reports `e` on every access to one address, and is plain storage elsewhere. -/
def failingBus (bad : Word) (e : BusInfo) : Bus Memory where
  read m a _  := if a = bad then (.error e, m) else (.ok (Memory.read m a.toNat), m)
  write m a v := if a = bad then (.error e, m) else (.ok (), Memory.write m a.toNat v)

/-- The hardware's parameters with a count that can be computed. -/
def params : Params := { hardware with stepCycles := 3 }

/-- The error a step of the loop on a failing bus returns, with A and PC after it. -/
def errorOn (bad : Word) (s : State) : Option (StepResult × Byte × Word) :=
  (stepOn params (failingBus bad 7) s.cpu s.mem).map fun r => (r.2.2, r.1.a, r.1.pc)

theorem test_V_E_1 : after (boot 0xAA 0xBB 0xCC 0x8000 [(0x8000, 0x00)])
    (fun t => t == { boot 0xAA 0xBB 0xCC 0x8000 [(0x8000, 0x00)] with
      cpu := ⟨0xAA, 0xBB, 0xCC, 0x24, 0xFD, 0x8000, .faulted (.unimplementedOpcode 0x00 0x8000)⟩ }) = true := by decide
theorem test_V_E_5 : stepResult (boot 0xAA 0xBB 0xCC 0x8000 [(0x8000, 0x89), (0x8001, 0x10)]) =
    some (.error (.unimplementedOpcode 0x89 0x8000)) := by decide
theorem test_V_E_6 : errorOn 0x4000 (boot 0xAA 0xBB 0xCC 0x8000 [(0x8000, 0xAD), (0x8001, 0x00), (0x8002, 0x40)]) =
    some (.error (.busError 7), 0xAA, 0x8000) := by decide
theorem test_V_E_7 : errorOn 0x4000 (boot 0xAA 0xBB 0xCC 0x8000 [(0x8000, 0x8D), (0x8001, 0x00), (0x8002, 0x40)]) =
    some (.error (.busError 7), 0xAA, 0x8000) := by decide
theorem test_V_E_8 : errorOn 0x8001 (boot 0xAA 0xBB 0xCC 0x8000 [(0x8000, 0xA9), (0x8001, 0x05)]) =
    some (.error (.busError 7), 0xAA, 0x8000) := by decide
theorem test_V_E_9 : errorOn 0x8000 (boot 0xAA 0xBB 0xCC 0x8000 [(0x8000, 0xFF)]) =
    some (.error (.busError 7), 0xAA, 0x8000) := by decide

/-- The default table with the entry of 0xA9 replaced, as in V-E-11. -/
def oddTable (op : Byte) : Descriptor := if op = 0xA9 then ⟨.lda, .implied⟩ else opcodeTable op

theorem test_V_E_11 :
    (stepOn { params with opcodeTable := oddTable } referenceBus (boot 0xAA 0xBB 0xCC 0x8000 [(0x8000, 0xA9)]).cpu
      [(0x8000, 0xA9)]).map (fun r => r.2.2) =
    some (.error (.invalidAddressingMode .lda .implied 0xA9 0x8000)) := by decide

/-- V-A-16's memory and instruction, under a setting of ZP_PTR_WRAP: the byte loaded tells the effective address. -/
def loadedUnder (wrap : Bool) : Option Byte :=
  let s := boot 0xAA 0xBB 0x02 0x8000 [(0x8000, 0xB1), (0x8001, 0xFF), (0x00FF, 0x00), (0x0000, 0x40), (0x0100, 0x50),
    (0x4002, 0x11), (0x5002, 0x22)]
  (stepOn { params with zpPtrWrap := wrap } referenceBus s.cpu s.mem).map fun r => r.1.a

theorem test_V_A_16 : loadedUnder true = some 0x11 ∧ loadedUnder false = some 0x22 := by decide

/-- P1's first two steps under `run`: by the bound, and stopped before the second by a breakpoint (R153). -/
theorem test_run_bound_and_stop :
    let s := boot 0x11 0x22 0x33 0x8000 [(0x8000, 0xA9), (0x8001, 0x04), (0x8002, 0x85), (0x8003, 0x00)]
    runEnd 2 (fun _ => false) s = .bound ∧ runEnd 2 (fun pc => pc == 0x8002) s = .stopped ∧
    runEnd 3 (fun _ => false) s = .faulted (.unimplementedOpcode 0x00 0x8004) := by decide

/-! ### Witnesses: the hypotheses of each statement are met together -/

/-- LDA #$80 at 0x8000. -/
def ldaState : State := boot 0xAA 0xBB 0xCC 0x8000 [(0x8000, 0xA9), (0x8001, 0x80)]

/-- STA $8003 at 0x8000, onto the byte after itself. -/
def staState : State := boot 0xAA 0xBB 0xCC 0x8000 [(0x8000, 0x8D), (0x8001, 0x03), (0x8002, 0x80)]

/-- BRK's byte at 0x8000. -/
def brkState : State := boot 0xAA 0xBB 0xCC 0x8000 []

theorem witness_UpdateZNFollowsTheValue :
    (0x00#8).toNat = 0 ∧ (1 ≤ (0x01#8).toNat ∧ (0x01#8).toNat ≤ 0x7F) ∧ (1 ≤ (0x7F#8).toNat ∧ (0x7F#8).toNat ≤ 0x7F) ∧
    0x80 ≤ (0x80#8).toNat := by decide
theorem witness_LaunchSatisfiesInvariant : Memory.wf [(0x0000, 0x01), (0xFFFF, 0x02)] = true := by decide
theorem witness_ReferenceBusIsPlainStorage : Memory.wf ldaState.mem = true ∧ (0x8001#16 : Word) ≠ 0x8000#16 := by decide
theorem witness_DecodeInvertsEncode : (Instr.ldaImm 0x80).wf = true ∧ (Instr.unimplemented 0x00).wf = true := by decide
theorem witness_EncodeInvertsDecode : decode [0xA9#8, 0x80#8, 0x01#8] = .ok (.ldaImm 0x80, [0x01#8]) := rfl
theorem witness_LengthComesFromTheOpcode :
    (opcodeTable 0xAD).mode.len.getD 0 ≤ [0x34#8, 0x12#8].length ∧ [0x34#8].length < (opcodeTable 0xAD).mode.len.getD 0 := by
  decide
theorem witness_OpcodeTableIsTotalAndLegal : implemented 0x8C = true ∧ implemented 0x00 = false := by decide
theorem witness_LoadsUpdateZNOfTheLoadedValue : loadTarget (.ldxAbsY 0xF0 0x02) = some .x := rfl
theorem witness_LoadsOnlyRead :
    (referenceBus.read ldaState.mem ldaState.cpu.pc false).1 = .ok 0xA9 ∧ (params.opcodeTable 0xA9).mnemonic = .lda ∧
    ∃ c' s' log' r, stepOn params (tracedBus referenceBus) ldaState.cpu (ldaState.mem, []) = some (c', (s', log'), r) :=
  ⟨rfl, rfl, _, _, _, _, rfl⟩
theorem witness_StaStoresA : Memory.wf staState.mem = true := by decide
theorem witness_StxStoresX : Memory.wf (boot 0xAA 0x05 0xCC 0x8000 [(0x8000, 0x86), (0x8001, 0x10)]).mem = true := by decide
theorem witness_StyStoresY : Memory.wf (boot 0xAA 0xBB 0x03 0x8000 [(0x8000, 0x84), (0x8001, 0x10)]).mem = true := by decide
theorem witness_StoresWriteNoFlag : storeAddress (.stxZpY 0xFF) ldaState = some 0x00CB := by decide
theorem witness_StoredByteIsTheNextOpcode :
    Memory.wf staState.mem = true ∧ hilo 0x03 0x80 = staState.cpu.pc + 3#16 := by decide
theorem witness_EveryOtherByteIsUnimplemented :
    brkState.cpu.loop = .running ∧ implemented (brkState.readByte brkState.cpu.pc) = false := by decide
theorem witness_MemoryChangesOnlyAtTheStoreAddress :
    storeAddress (.staZp 0x10) ldaState ≠ some 0x0011 ∧ storeAddress (.ldaImm 0x80) ldaState ≠ some 0x0010 := by decide
theorem witness_RegistersChangeOnlyAsNamed :
    loadTarget (.ldaImm 0x80) ≠ some .x ∧ loadTarget (.styZp 0x10) = none ∧
    (Instr.ldaImm 0x80).mnemonic ≠ .unimplemented ∧ (Flag.c ≠ .z ∧ Flag.c ≠ .n) := by decide
theorem witness_StepRunsTheDecodedInstruction :
    ldaState.cpu.loop = .running ∧
    decode [ldaState.readByte ldaState.cpu.pc, ldaState.readByte (ldaState.cpu.pc + 1#16),
      ldaState.readByte (ldaState.cpu.pc + 2#16)] = .ok (.ldaImm 0x80, [0x00#8]) := ⟨rfl, rfl⟩
theorem witness_PlacedWordIsRunNext :
    Memory.wf State.reset.mem = true ∧ decodeTableWord 16 0x80A9 = some (.ldaImm 0x80) ∧
    (0x0003#16 ≠ State.reset.cpu.pc ∧ 0x0003#16 ≠ State.reset.cpu.pc + 1#16 ∧ 0x0003#16 ≠ State.reset.cpu.pc + 2#16) := by
  decide
theorem witness_EveryUnfaultedStateSteps : ldaState.steps = true ∧ (callerHalt ldaState).steps = true := by decide
theorem witness_PcPassesTheInstruction :
    ldaState.cpu.loop = .running ∧ implemented (ldaState.readByte ldaState.cpu.pc) = true := by decide
theorem witness_CompletedStepsReturnThePlaceholder :
    (∃ t, ldaState.cpu.loop = .running ∧ step ldaState = .next t ∧ t.cpu.loop = .running) ∧
    ∃ t, brkState.cpu.loop = .running ∧ step brkState = .next t ∧
      t.cpu.loop = .faulted (.unimplementedOpcode 0x00 0x8000) :=
  ⟨⟨_, rfl, rfl, rfl⟩, ⟨_, rfl, rfl, rfl⟩⟩
theorem witness_HaltedIsFinal :
    (callerHalt ldaState).cpu.loop = .halted ∧ ldaState.cpu.loop = .running ∧
    ∃ t, step (callerHalt ldaState) = .next t ∧ t.cpu.loop = .halted := ⟨rfl, rfl, _, rfl, rfl⟩
theorem witness_NothingWakesAHaltedCore :
    (callerHalt ldaState).cpu.loop = .halted ∧ Reaches (callerHalt ldaState) (callerHalt ldaState) := ⟨rfl, .refl _⟩
theorem witness_FaultedTakesNoStep :
    stepResult brkState = some (.error (.unimplementedOpcode 0x00 0x8000)) ∧
    ∃ s : State, s.cpu.loop = .faulted (.unimplementedOpcode 0x00 0x8000) :=
  ⟨by decide, { brkState with cpu := { brkState.cpu with loop := .faulted (.unimplementedOpcode 0x00 0x8000) } }, rfl⟩
theorem witness_StepKeepsInvariant : ∃ t, staState.inv = true ∧ step staState = .next t := ⟨_, by decide, rfl⟩
theorem witness_SoundStatesAreSafe : brkState.inv = true := by decide
theorem witness_StackPointerIsNeverUsed : ∃ t, step staState = .next t := ⟨_, rfl⟩
theorem witness_SixFlagsAreHeldAndUnread : ∃ t, step ldaState = .next t ∧ Flag.v ≠ .z ∧ Flag.v ≠ .n :=
  ⟨_, rfl, by decide, by decide⟩
theorem witness_FlagOperationsTouchOneBit : 6 ≠ Flag.n.bit := by decide
theorem witness_RegistersAreIndependent : Reg.x ≠ Reg.a := by decide
theorem witness_LoadsAloneWriteNAndZ :
    loadTarget (.ldyAbsX 0x00 0x03) = some .y ∧ loadTarget (.unimplemented 0xEA) = none ∧ Flag.c ≠ .z ∧ Flag.c ≠ .n := by
  decide
theorem witness_StatusInfluencesNothingElse : ∃ t, step brkState = .next t := ⟨_, rfl⟩
theorem witness_MemoryPrimitivesPassErrorsOn :
    (failingBus 0x4000 7).read [] 0x4001 false = (.ok 0x00, []) ∧
    (failingBus 0x4000 7).read [] 0x4000 false = (.error 7, []) ∧
    (failingBus 0x4000 7).write [] 0x4001 0x00 = (.ok (), []) ∧
    (failingBus 0x4000 7).write [] 0x4000 0x00 = (.error 7, []) := ⟨rfl, rfl, rfl, rfl⟩
theorem witness_FaultsArePreciseOnEveryBus :
    ldaState.cpu.loop = .running ∧
    runningStep params (failingBus 0x8001 7) ldaState.cpu ldaState.mem = (.error (.busError 7), ldaState.mem) ∧
    ∃ c', stepOn params (failingBus 0x8001 7) ldaState.cpu ldaState.mem =
      some (c', ldaState.mem, .error (.busError 7)) := ⟨rfl, rfl, _, rfl⟩
theorem witness_MissingExecutorFaultsBeforeOperands :
    brkState.cpu.loop = .running ∧
    (failingBus 0x8001 7).read brkState.mem brkState.cpu.pc false = (.ok 0x00, brkState.mem) ∧
    (params.opcodeTable 0x00).mnemonic.hasExecutor = false := ⟨rfl, rfl, rfl⟩
theorem witness_IllegalModeFaultsBeforeOperands :
    ldaState.cpu.loop = .running ∧
    (failingBus 0x8001 7).read ldaState.mem ldaState.cpu.pc false = (.ok 0xA9, ldaState.mem) ∧
    (oddTable 0xA9).mnemonic.hasExecutor = true ∧ legal (oddTable 0xA9).mnemonic (oddTable 0xA9).mode = false :=
  ⟨rfl, rfl, rfl, rfl⟩
theorem witness_IllegalModeFaultsBeforeOperands_table : (opcodeTable 0x8C).mnemonic.hasExecutor = true := rfl
theorem witness_BusErrorsComeFirstAndLast :
    ldaState.cpu.loop = .running ∧
    (failingBus 0x8000 7).read ldaState.mem ldaState.cpu.pc false = (.error 7, ldaState.mem) ∧
    ((failingBus 0x8001 7).read ldaState.mem ldaState.cpu.pc false).1 = .ok 0xA9 ∧
    (params.opcodeTable 0xA9).mnemonic.hasExecutor = true ∧
    legal (params.opcodeTable 0xA9).mnemonic (params.opcodeTable 0xA9).mode = true ∧
    ∃ c' s' f, stepOn params (failingBus 0x8001 7) ldaState.cpu ldaState.mem = some (c', s', .error f) :=
  ⟨rfl, rfl, rfl, rfl, rfl, _, _, _, rfl⟩
theorem witness_StepReadsThenWritesAtMostOnce : ∃ c' s' log' r,
    stepOn params (tracedBus (failingBus 0x8003 7)) staState.cpu (staState.mem, []) = some (c', (s', log'), r) :=
  ⟨_, _, _, _, rfl⟩
theorem witness_AccessesAreThoseOfTheTable : staState.cpu.loop = .running := rfl
theorem witness_ZeroPagePointersUnderBothWraps : (0xFE#8 : Byte) ≠ 0xFF#8 := by decide
theorem witness_ResolvingAdvancesPcByTheModeAlone (site : Site) :
    Mode.len .absoluteX = some 2 ∧
    (∃ ea c' s', resolveAddress true referenceBus site .absoluteX ldaState.cpu ldaState.mem = (.ok (ea, c'), s')) ∧
    ∃ v c' s', resolveValue true referenceBus site .absoluteX ldaState.cpu ldaState.mem = (.ok (v, c'), s') :=
  ⟨rfl, ⟨_, _, _, rfl⟩, ⟨_, _, _, rfl⟩⟩
theorem witness_RunsEndInFourWays :
    ∃ t rs, run 2 (fun _ => false) brkState = (t, rs) ∧ brkState.cpu.loop = .running ∧
      t.cpu.loop = .faulted (.unimplementedOpcode 0x00 0x8000) := ⟨_, _, rfl, rfl, rfl⟩

end Sys2Proof.Tests
end

/-! PROOFS. The state family (10_state.md): the registers, the flags of P, and what no step reads or writes. -/

namespace Sys2Proof.Machine
open Sys2Proof.Claims

/-! ### The bits of a flag (R18, R19, R88) -/

/-- A mask is the power of two at its flag's place. -/
theorem Flag.mask_eq_twoPow (f : Flag) : f.mask = BitVec.twoPow 8 f.bit := by cases f <;> rfl

/-- The one bit of a mask, at any place, inside the byte or not. -/
theorem Flag.getLsbD_mask (f : Flag) (k : Nat) : f.mask.getLsbD k = decide (f.bit = k) := by
  simp [Flag.mask_eq_twoPow, BitVec.getLsbD_twoPow, Flag.bit_lt]

/-- No two flags share a bit. -/
theorem Flag.bit_injective {f g : Flag} (h : f.bit = g.bit) : f = g := by
  have hg : f.mask.getLsbD g.bit = true := by simp [Flag.getLsbD_mask, h]
  rw [Flag.mask_getLsbD] at hg
  exact (of_decide_eq_true hg).symm

theorem getLsbD_setFlag (f : Flag) (p : Byte) (k : Nat) :
    (setFlag f p).getLsbD k = (p.getLsbD k || decide (f.bit = k)) := by
  rw [setFlag, BitVec.getLsbD_or, Flag.getLsbD_mask]

theorem getLsbD_clearFlag (f : Flag) (p : Byte) (k : Nat) :
    (clearFlag f p).getLsbD k = (p.getLsbD k && !decide (f.bit = k)) := by
  rw [clearFlag, BitVec.getLsbD_and, BitVec.getLsbD_not, Flag.getLsbD_mask]
  by_cases hk : k < 8
  · simp [hk]
  · simp [BitVec.getLsbD_of_ge p k (Nat.le_of_not_lt hk)]

/-! ### The flags after UpdateZN (R89) -/

@[simp] theorem testFlag_updateZN_z (v p : Byte) : testFlag .z (updateZN v p) = (v == 0#8) := by
  simp [updateZN, testFlag_writeFlag]

@[simp] theorem testFlag_updateZN_n (v p : Byte) : testFlag .n (updateZN v p) = v.getLsbD 7 := by
  simp [updateZN, testFlag_writeFlag, BitVec.msb_eq_getLsbD_last]

theorem testFlag_updateZN_other {f : Flag} (hz : f ≠ .z) (hn : f ≠ .n) (v p : Byte) :
    testFlag f (updateZN v p) = testFlag f p := by
  simp [updateZN, testFlag_writeFlag, hz, hn]

/-! ### The form of an instruction

Unlike `exec_cases`, which speaks of one state, these forms hold with the same register and operand from every state, so
they compare one instruction's runs from two states. -/

/-- A load is of an immediate byte or of a memory operand. -/
theorem exec_load_form {i : Instr} {r : Reg} (h : loadTarget i = some r) :
    (∃ b, ∀ s, exec i s = loadImm r b s) ∨ ∃ o, ∀ s, exec i s = loadMem r o s := by
  cases i <;> cases h
  case ldaImm | ldxImm | ldyImm => exact .inl ⟨_, fun _ => rfl⟩
  all_goals exact .inr ⟨_, fun _ => rfl⟩

/-- An instruction that loads nothing is a store or unimplemented. -/
theorem exec_nonload_form {i : Instr} (h : loadTarget i = none) :
    (∃ r o, ∀ s, exec i s = storeMem r o s) ∨ ∃ op, ∀ s, exec i s = execUnimplemented op s := by
  cases i <;> cases h
  case unimplemented op => exact .inr ⟨op, fun _ => rfl⟩
  all_goals exact .inl ⟨_, _, fun _ => rfl⟩

/-! ### Runs under another P

Operands are formed from A, X, Y, PC and memory alone, so another P changes the next state in P alone. -/

@[simp] theorem fetchInstr_withP (s : State) (p : Byte) : fetchInstr (withP s p) = fetchInstr s := rfl

@[simp] theorem MemOperand.addr_withP (o : MemOperand) (s : State) (p : Byte) : o.addr (withP s p) = o.addr s := by
  cases o <;> rfl

@[simp] theorem MemOperand.value_withP (o : MemOperand) (s : State) (p : Byte) : o.value (withP s p) = o.value s := by
  rw [MemOperand.value, MemOperand.addr_withP]; rfl

theorem loadByte_withP (r : Reg) (v : Byte) (n : Nat) (s : State) (p : Byte) :
    loadByte r v n (withP s p) =
      .next (withP { s with cpu := (s.cpu.load r v).advance n } (updateZN v p)) := by
  cases r <;> rfl

theorem storeMem_withP (r : Reg) (o : MemOperand) (s : State) (p : Byte) :
    storeMem r o (withP s p) =
      .next (withP { s.writeByte (o.addr s) (s.cpu.get r) with cpu := s.cpu.advance o.bytes } p) := by
  rw [storeMem, MemOperand.addr_withP]
  cases r <;> rfl

/-- A load applies UpdateZN of the loaded value to whatever P it finds, and reads nothing of P. -/
theorem exec_load_withP {i : Instr} {r : Reg} (h : loadTarget i = some r) (s : State) :
    ∃ t, exec i s = .next t ∧ t.cpu.p = updateZN (t.cpu.get r) s.cpu.p ∧
      ∀ p, exec i (withP s p) = .next (withP t (updateZN (t.cpu.get r) p)) := by
  obtain ⟨b, hi⟩ | ⟨o, hi⟩ := exec_load_form h
  · refine ⟨_, (hi s).trans (loadByte_eq r b 2 s), by simp, fun p => ?_⟩
    simp [hi, loadImm, loadByte_withP]
  · refine ⟨_, (hi s).trans (loadByte_eq r (o.value s) o.bytes s), by simp, fun p => ?_⟩
    simp [hi, loadMem, loadByte_withP]

/-- An instruction that loads nothing passes on whatever P it finds, and reads nothing of it. -/
theorem exec_nonload_withP {i : Instr} (h : loadTarget i = none) (s : State) :
    ∃ t, exec i s = .next t ∧ t.cpu.p = s.cpu.p ∧ ∀ p, exec i (withP s p) = .next (withP t p) := by
  obtain ⟨r, o, hi⟩ | ⟨op, hi⟩ := exec_nonload_form h
  · exact ⟨_, (hi s).trans (storeMem_eq r o s), rfl, fun p => (hi _).trans (storeMem_withP r o s p)⟩
  · exact ⟨_, (hi s).trans (raiseFault_eq _ s), rfl, fun p => hi _⟩

/-! ### Runs under another SP -/

@[simp] theorem fetchInstr_withSp (s : State) (v : Byte) : fetchInstr (withSp s v) = fetchInstr s := rfl

@[simp] theorem MemOperand.addr_withSp (o : MemOperand) (s : State) (v : Byte) : o.addr (withSp s v) = o.addr s := by
  cases o <;> rfl

@[simp] theorem MemOperand.value_withSp (o : MemOperand) (s : State) (v : Byte) :
    o.value (withSp s v) = o.value s := by
  rw [MemOperand.value, MemOperand.addr_withSp]; rfl

theorem loadByte_withSp (r : Reg) (b : Byte) (n : Nat) (s : State) (v : Byte) :
    loadByte r b n (withSp s v) = .next (withSp { s with cpu := (s.cpu.load r b).advance n } v) := by
  cases r <;> rfl

theorem storeMem_withSp (r : Reg) (o : MemOperand) (s : State) (v : Byte) :
    storeMem r o (withSp s v) =
      .next (withSp { s.writeByte (o.addr s) (s.cpu.get r) with cpu := s.cpu.advance o.bytes } v) := by
  rw [storeMem, MemOperand.addr_withSp]
  cases r <;> rfl

/-- Every instruction keeps SP, and another SP changes the next state in SP alone. -/
theorem exec_withSp (i : Instr) (s : State) :
    ∃ t, exec i s = .next t ∧ t.cpu.sp = s.cpu.sp ∧ ∀ v, exec i (withSp s v) = .next (withSp t v) := by
  cases h : loadTarget i with
  | some r =>
    obtain ⟨b, hi⟩ | ⟨o, hi⟩ := exec_load_form h
    · exact ⟨_, (hi s).trans (loadByte_eq r b 2 s), by simp, fun v => (hi _).trans (loadByte_withSp r b 2 s v)⟩
    · refine ⟨_, (hi s).trans (loadByte_eq r (o.value s) o.bytes s), by simp, fun v => ?_⟩
      simp [hi, loadMem, loadByte_withSp]
  | none =>
    obtain ⟨r, o, hi⟩ | ⟨op, hi⟩ := exec_nonload_form h
    · exact ⟨_, (hi s).trans (storeMem_eq r o s), rfl, fun v => (hi _).trans (storeMem_withSp r o s v)⟩
    · exact ⟨_, (hi s).trans (raiseFault_eq _ s), rfl, fun v => hi _⟩

/-! ### Steps -/

/-- A step that answers a next state is Halted's, which changes nothing, or runs the instruction at PC. -/
theorem step_next_cases {s t : State} (h : step s = .next t) :
    (s.cpu.loop = .halted ∧ t = s) ∨ (s.cpu.loop = .running ∧ exec (fetchInstr s) s = .next t) := by
  cases hl : s.cpu.loop with
  | running => exact .inr ⟨rfl, step_running hl ▸ h⟩
  | halted => exact .inl ⟨rfl, (Host.Outcome.next.inj ((step_halted hl).symm.trans h)).symm⟩
  | faulted f => cases (step_faulted hl).symm.trans h

/-- The result of a step is fixed by the loop states before and after it. -/
theorem stepResult_congr {s s' t t' : State} (h : step s = .next t) (h' : step s' = .next t')
    (hs : s'.cpu.loop = s.cpu.loop) (ht : t'.cpu.loop = t.cpu.loop) : stepResult s' = stepResult s := by
  simp only [stepResult, h, h', hs, ht]

/-- Under another P a step answers the same next state but for P, which it passes on, or on which it applies the UpdateZN
that it applies to the state's own P. -/
theorem step_withP_cases {s t : State} (h : step s = .next t) :
    (∃ v, t.cpu.p = updateZN v s.cpu.p ∧ ∀ p, step (withP s p) = .next (withP t (updateZN v p))) ∨
    (t.cpu.p = s.cpu.p ∧ ∀ p, step (withP s p) = .next (withP t p)) := by
  obtain ⟨hl, rfl⟩ | ⟨hl, he⟩ := step_next_cases h
  · exact .inr ⟨rfl, fun p => step_halted hl⟩
  · have hstep (p : Byte) : step (withP s p) = exec (fetchInstr s) (withP s p) := step_running hl
    cases hi : loadTarget (fetchInstr s) with
    | some r =>
      obtain ⟨t', ht, hp, hw⟩ := exec_load_withP hi s
      cases ht.symm.trans he
      exact .inl ⟨_, hp, fun p => (hstep p).trans (hw p)⟩
    | none =>
      obtain ⟨t', ht, hp, hw⟩ := exec_nonload_withP hi s
      cases ht.symm.trans he
      exact .inr ⟨hp, fun p => (hstep p).trans (hw p)⟩

/-! ### The statements -/

/-- Settles O40: what an instruction does to SP, `exec_withSp`, carried to the step. -/
theorem stackPointerIsNeverUsed : Obligations.StackPointerIsNeverUsed := by
  intro s t h
  obtain ⟨hl, rfl⟩ | ⟨hl, he⟩ := step_next_cases h
  · exact ⟨rfl, fun v => step_halted hl⟩
  · obtain ⟨t', ht, hsp, hw⟩ := exec_withSp (fetchInstr s) s
    cases ht.symm.trans he
    exact ⟨hsp, fun v => (step_running (s := withSp s v) hl).trans (hw v)⟩

/-- Settles O41: a step applies UpdateZN or leaves P alone, on this P as on any other (`step_withP_cases`). -/
theorem sixFlagsAreHeldAndUnread : Obligations.SixFlagsAreHeldAndUnread := by
  intro s t h
  obtain ⟨v, hp, hw⟩ | ⟨hp, hw⟩ := step_withP_cases h
  · refine ⟨fun f hz hn => hp ▸ testFlag_updateZN_other hz hn v s.cpu.p, fun p => ?_⟩
    exact ⟨stepResult_congr h (hw p) rfl rfl, updateZN v p, hw p,
      fun f hz hn => testFlag_updateZN_other hz hn v p, .inl (by simp [hp])⟩
  · refine ⟨fun f _ _ => by rw [hp], fun p => ?_⟩
    exact ⟨stepResult_congr h (hw p) rfl rfl, p, hw p, fun f _ _ => rfl, .inr ⟨hp, rfl⟩⟩

/-- Settles O42: loads and the other instructions apart, by what each does to any P. -/
theorem loadsAloneWriteNAndZ : Obligations.LoadsAloneWriteNAndZ := by
  intro i s
  cases hi : loadTarget i with
  | some r =>
    obtain ⟨t, ht, hp, hw⟩ := exec_load_withP hi s
    refine ⟨t, ht, fun r' hr => ?_, nofun, fun p => ⟨_, hw p, fun f hz hn => testFlag_updateZN_other hz hn _ p⟩⟩
    cases hr
    exact ⟨by rw [hp, testFlag_updateZN_n], by rw [hp, testFlag_updateZN_z]⟩
  | none =>
    obtain ⟨t, ht, hp, hw⟩ := exec_nonload_withP hi s
    exact ⟨t, ht, nofun, fun _ => by simp [hp], fun p => ⟨p, hw p, fun f _ _ => rfl⟩⟩

/-- Settles O3, by the laws of a register write. -/
theorem registersAreIndependent : Obligations.RegistersAreIndependent := fun c r v =>
  ⟨Cpu.get_set_same c r v, fun _ hq => Cpu.get_set_other c hq v, Cpu.set_p c r v, Cpu.set_sp c r v, Cpu.set_pc c r v⟩

/-- Settles O5: each flag is a binary digit of P. -/
theorem statusByteIsTheSumOfItsFlags : Obligations.StatusByteIsTheSumOfItsFlags := by
  intro p
  have hp : p.toNat < 256 := p.isLt
  simp only [testFlag_eq_getLsbD, BitVec.getLsbD, Nat.toNat_testBit, Flag.bit]
  omega

/-- Settles O6, by the bits of a set and of a cleared flag. -/
theorem flagOperationsTouchOneBit : Obligations.FlagOperationsTouchOneBit := by
  refine ⟨fun f p => ⟨testFlag_eq_getLsbD f p, ?_, ?_, fun k hk => ⟨?_, ?_⟩⟩, fun f g => Flag.bit_injective⟩
  · simp [getLsbD_setFlag]
  · simp [getLsbD_clearFlag]
  · simp [getLsbD_setFlag, hk.symm]
  · simp [getLsbD_clearFlag, hk.symm]

end Sys2Proof.Machine

/-! PROOFS. The addressing family (40_addressing.md): what resolving a mode consumes, and what it answers. -/

namespace Sys2Proof.Machine
open Sys2Proof.Claims

/-! ### How far a staged computation advances PC (R67)

One rule for each way to build a staged computation, on any bus; the resolver's follow from how it is put together. -/

@[simp] theorem Cpu.advance_zero (c : Cpu) : c.advance 0 = c := by simp [Cpu.advance]

/-- Whenever the computation answers, the registers are those before with PC past `n` more bytes. -/
def AdvancesBy {S α : Type} (m : Staged S α) (n : Nat) : Prop :=
  ∀ ⦃c c' : Cpu⦄ ⦃s s' : S⦄ ⦃v : α⦄, m c s = (.ok (v, c'), s') → c' = c.advance n

section
variable {S α β : Type}

theorem stagedPure_advancesBy (v : α) : AdvancesBy (stagedPure v : Staged S α) 0 := by
  intro c c' s s' w h
  cases h
  exact c.advance_zero.symm

theorem stagedCpu_advancesBy : AdvancesBy (stagedCpu : Staged S Cpu) 0 := by
  intro c c' s s' w h
  cases h
  exact c.advance_zero.symm

theorem stagedModify_advancesBy (n : Nat) : AdvancesBy (stagedModify fun c => c.advance n : Staged S Unit) n := by
  intro c c' s s' w h
  cases h
  rfl

/-- A fault answers nothing. -/
theorem stagedRaise_advancesBy (f : Fault) (n : Nat) : AdvancesBy (stagedRaise f : Staged S α) n := by
  intro c c' s s' v h
  cases h

theorem memRead_advancesBy (bus : Bus S) (a : Word) : AdvancesBy (memRead bus a) 0 := by
  intro c c' s s' v h
  rw [memRead_cpu h, Cpu.advance_zero]

/-- Advances of two parts run one after another add up. -/
theorem stagedBind_advancesBy {m : Staged S α} {k : α → Staged S β} {i j : Nat}
    (hm : AdvancesBy m i) (hk : ∀ v, AdvancesBy (k v) j) : AdvancesBy (stagedBind m k) (i + j) := by
  intro c c' s s' w h
  obtain ⟨v, c₁, s₁, hfirst, hsecond⟩ := stagedBind_eq_ok h
  rw [hk v hsecond, hm hfirst, Cpu.advance_advance]

theorem fetchOperandByte_advancesBy (bus : Bus S) : AdvancesBy (fetchOperandByte bus) 1 :=
  stagedBind_advancesBy stagedCpu_advancesBy fun c =>
    stagedBind_advancesBy (memRead_advancesBy bus c.pc) fun b =>
      stagedBind_advancesBy (stagedModify_advancesBy 1) fun _ => stagedPure_advancesBy b

theorem fetchAbsolute_advancesBy (bus : Bus S) : AdvancesBy (fetchAbsolute bus) 2 :=
  stagedBind_advancesBy (fetchOperandByte_advancesBy bus) fun lo =>
    stagedBind_advancesBy (fetchOperandByte_advancesBy bus) fun hi => stagedPure_advancesBy (absAddr lo hi)

/-- Reading a pointer consumes no operand byte. -/
theorem readPointer_advancesBy (wrap : Bool) (bus : Bus S) (p : Byte) : AdvancesBy (readPointer wrap bus p) 0 :=
  stagedBind_advancesBy (memRead_advancesBy bus _) fun lo =>
    stagedBind_advancesBy (memRead_advancesBy bus _) fun hi => stagedPure_advancesBy (hilo lo hi)

/-- Forming an address from the staged registers, the last part of every indexed mode, consumes no operand byte. -/
theorem stagedCpu_stagedPure_advancesBy (f : Cpu → α) :
    AdvancesBy (stagedBind stagedCpu fun c => stagedPure (f c) : Staged S α) 0 :=
  stagedBind_advancesBy stagedCpu_advancesBy fun c => stagedPure_advancesBy (f c)

/-- The address form advances PC by the mode's length; a mode without one answers nothing. -/
theorem resolveAddress_advancesBy (wrap : Bool) (bus : Bus S) (site : Site) {m : Mode} {n : Nat} (hlen : m.len = some n) :
    AdvancesBy (resolveAddress wrap bus site m) n := by
  have hbyte := fetchOperandByte_advancesBy bus
  have hword := fetchAbsolute_advancesBy bus
  cases m <;> cases hlen
  case zeroPage => exact stagedBind_advancesBy hbyte fun b => stagedPure_advancesBy (zpAddr b)
  case zeroPageX | zeroPageY => exact stagedBind_advancesBy hbyte fun _ => stagedCpu_stagedPure_advancesBy _
  case absolute => exact hword
  case absoluteX | absoluteY => exact stagedBind_advancesBy hword fun _ => stagedCpu_stagedPure_advancesBy _
  case indirectX =>
    exact stagedBind_advancesBy hbyte fun b =>
      stagedBind_advancesBy stagedCpu_advancesBy fun c => readPointer_advancesBy wrap bus (b + c.x)
  case indirectY =>
    exact stagedBind_advancesBy hbyte fun b =>
      stagedBind_advancesBy (readPointer_advancesBy wrap bus b) fun _ => stagedCpu_stagedPure_advancesBy _
  case accumulator | immediate | implied | relative | indirect => exact stagedRaise_advancesBy _ _

/-- The value form advances PC by the mode's length: Accumulator and Immediate by their own rule, every other mode by its
address form and a read. -/
theorem resolveValue_advancesBy (wrap : Bool) (bus : Bus S) (site : Site) {m : Mode} {n : Nat} (hlen : m.len = some n) :
    AdvancesBy (resolveValue wrap bus site m) n := by
  have hea := stagedBind_advancesBy (resolveAddress_advancesBy wrap bus site hlen) (memRead_advancesBy bus)
  cases m
  case accumulator => cases hlen; exact stagedCpu_stagedPure_advancesBy Cpu.a
  case immediate => cases hlen; exact fetchOperandByte_advancesBy bus
  all_goals exact hea

end

/-! ### Addresses in page 0 (R73 to R75) -/

@[simp] theorem zext16_toNat (b : Byte) : (zext16 b).toNat = b.toNat := BitVec.toNat_setWidth_of_le (by decide)

/-- A zero-extended byte is an address in page 0. -/
theorem zext16_toNat_lt (b : Byte) : (zext16 b).toNat < 256 := by
  rw [zext16_toNat]
  exact b.isLt

/-! ### The resolver's parts on the reference bus (R68, R69, R76) -/

/-- An operand byte is the byte at PC. -/
@[simp] theorem fetchOperandByte_reference (c : Cpu) (m : Memory) :
    fetchOperandByte referenceBus c m = (.ok (Memory.read m c.pc.toNat, c.advance 1), m) := rfl

/-- An absolute address is the two bytes at PC, low byte first. -/
@[simp] theorem fetchAbsolute_reference (c : Cpu) (m : Memory) :
    fetchAbsolute referenceBus c m =
      (.ok (hilo (Memory.read m c.pc.toNat) (Memory.read m (c.pc + 1#16).toNat), c.advance 2), m) := by
  rw [← Cpu.advance_advance c 1 1]
  rfl

/-- A pointer is read without a fault, and the registers stay. -/
@[simp] theorem readPointer_reference (wrap : Bool) (p : Byte) (c : Cpu) (m : Memory) :
    readPointer wrap referenceBus p c m =
      (.ok (hilo (Memory.read m p.toNat) (Memory.read m (pointerHighAddr wrap p).toNat), c), m) := by
  rw [← zext16_toNat p]
  rfl

/-! ### The table's modes -/

/-- An opcode of the table has one or two operand bytes, or the unimplemented entry, so none has Accumulator's length. -/
theorem opcodeTable_mode_ne_accumulator (op : Byte) : (opcodeTable op).mode ≠ .accumulator := by
  intro hacc
  obtain ⟨himp, -⟩ | ⟨-, hlen, -⟩ | ⟨-, hlen, -⟩ := shape_cases op
  · rw [opcodeTable_unimplemented himp] at hacc
    cases hacc
  all_goals
    rw [hacc] at hlen
    cases hlen

/-! ### The statements -/

/-- Settles O57, by the advance of either form of the resolver. -/
theorem resolvingAdvancesPcByTheModeAlone : Obligations.ResolvingAdvancesPcByTheModeAlone :=
  fun _ bus wrap site _ _ _ _ _ _ hlen =>
    ⟨fun _ h => resolveAddress_advancesBy wrap bus site hlen h, fun _ h => resolveValue_advancesBy wrap bus site hlen h⟩

/-- Settles O52: the value forms are a read of A and an operand byte, the address forms raise at once. -/
theorem accumulatorAndImmediateYieldValues : Obligations.AccumulatorAndImmediateYieldValues :=
  ⟨rfl, rfl, opcodeTable_mode_ne_accumulator, fun _ _ c =>
    ⟨fun _ _ s => ⟨rfl, stagedRaise_apply _ c s, stagedRaise_apply _ c s⟩, fun m => fetchOperandByte_reference c m⟩⟩

/-- Settles O53: one operand byte, and the address formed from it is a zero-extended byte. -/
theorem zeroPageModesStayInPageZero : Obligations.ZeroPageModesStayInPageZero := by
  intro wrap site c m b c'
  have hbyte : fetchOperandByte referenceBus c m = (.ok (b, c'), m) := fetchOperandByte_reference c m
  refine ⟨?_, ?_, ?_, zext16_toNat_lt _, zext16_toNat_lt _, zext16_toNat_lt _⟩
  all_goals
    rw [resolveAddress, stagedBind_ok hbyte]
    rfl

/-- Settles O54: the two operand bytes of `fetchAbsolute`, then the index. -/
theorem absoluteModesCarryIntoTheHighByte : Obligations.AbsoluteModesCarryIntoTheHighByte := by
  intro wrap site c m lo hi c'
  have hbase : fetchAbsolute referenceBus c m = (.ok (hilo lo hi, c'), m) := fetchAbsolute_reference c m
  refine ⟨hbase, ?_, ?_⟩
  all_goals
    rw [resolveAddress, stagedBind_ok hbase]
    rfl

/-- Settles O56: one operand byte; then IndirectX reads the pointer at the indexed address and is done, and IndirectY
reads the pointer at the byte itself and indexes what it read. -/
theorem indirectModesIndexBeforeOrAfter : Obligations.IndirectModesIndexBeforeOrAfter := by
  intro wrap site c m b c'
  have hbyte : fetchOperandByte referenceBus c m = (.ok (b, c'), m) := fetchOperandByte_reference c m
  have hpointer := readPointer_reference wrap b c' m
  refine ⟨?_, _, hpointer, ?_⟩
  · rw [resolveAddress, stagedBind_ok hbyte]
    rfl
  · rw [resolveAddress, stagedBind_ok hbyte, stagedBind_ok hpointer]
    rfl

end Sys2Proof.Machine

/-! PROOFS. The flags family (41_alu_flags.md): what UpdateZN, the loads and the stores do to P. -/

namespace Sys2Proof.Machine
open Sys2Proof.Claims

/-! ### Z and N by the value's range (R89) -/

theorem testFlag_updateZN_z_toNat (v p : Byte) : testFlag .z (updateZN v p) = decide (v.toNat = 0) := by
  rw [testFlag_updateZN_z, Bool.beq_eq_decide_eq, decide_eq_decide]
  exact BitVec.toNat_inj.symm

theorem testFlag_updateZN_n_toNat (v p : Byte) : testFlag .n (updateZN v p) = decide (0x80 ≤ v.toNat) :=
  calc testFlag .n (updateZN v p)
    _ = v.getLsbD 7              := testFlag_updateZN_n v p
    _ = v.msb                    := (BitVec.msb_eq_getLsbD_last v).symm
    _ = decide (0x80 ≤ v.toNat)  := BitVec.msb_eq_decide v

/-! ### Loads and stores are apart (R90, R91) -/

/-- An instruction that stores loads no register. -/
theorem loadTarget_eq_none_of_storeAddress {i : Instr} {s : State} {ea : Word} (h : storeAddress i s = some ea) :
    loadTarget i = none := by
  cases i
  case staZp | staZpX | staAbs | staAbsX | staAbsY | staIndX | staIndY | stxZp | stxZpY | stxAbs | styZp | styZpX
      | styAbs => rfl
  all_goals cases h

/-! ### The statements -/

/-- Settles O19: a load's P is UpdateZN of what it loaded (`exec_load_withP`), and UpdateZN writes no flag but Z and N. -/
theorem loadsUpdateZNOfTheLoadedValue : Obligations.LoadsUpdateZNOfTheLoadedValue := by
  intro i r s hload
  obtain ⟨t, ht, hp, -⟩ := exec_load_withP hload s
  exact ⟨t, ht, hp, fun f hz hn => hp ▸ testFlag_updateZN_other hz hn (t.cpu.get r) s.cpu.p⟩

/-- Settles O24: a store is no load, and an instruction that is no load passes P on (`exec_nonload_withP`). -/
theorem storesWriteNoFlag : Obligations.StoresWriteNoFlag := by
  intro i ea s hstore
  obtain ⟨t, ht, hp, -⟩ := exec_nonload_withP (loadTarget_eq_none_of_storeAddress hstore) s
  exact ⟨t, ht, hp⟩

/-- Settles O7: the assignments and the frame are the laws of UpdateZN; the outcomes follow from where the value lies. -/
theorem updateZNFollowsTheValue : Obligations.UpdateZNFollowsTheValue := by
  intro v p
  refine ⟨testFlag_updateZN_z v p, testFlag_updateZN_n v p, fun f hz hn => testFlag_updateZN_other hz hn v p, ?_⟩
  simp only [testFlag_updateZN_z_toNat, testFlag_updateZN_n_toNat, decide_eq_true_eq, decide_eq_false_iff_not]
  omega

end Sys2Proof.Machine

/-! PROOFS. The execution loop family (44_execution_loop.md): how a step leaves the loop, its result, and the two checks
between the opcode fetch and the operands. -/

namespace Sys2Proof.Machine
open Sys2Proof.Claims

/-! ### The loop after a step, and its result (R145, R150, R160) -/

/-- An instruction passes the loop on, or takes a fault. -/
theorem exec_next_loop_cases {i : Instr} {s t : State} (h : exec i s = .next t) :
    t.cpu.loop = s.cpu.loop ∨ ∃ f, t.cpu.loop = .faulted f := by
  obtain ⟨r, v, he⟩ | ⟨r, o, he, -⟩ | ⟨op, -, he⟩ := exec_cases i s
  · cases (h.symm.trans he).trans (loadByte_eq r v _ s)
    exact .inl (by simp)
  · cases (h.symm.trans he).trans (storeMem_eq r o s)
    exact .inl rfl
  · cases (h.symm.trans he).trans (raiseFault_eq _ s)
    exact .inr ⟨_, rfl⟩

theorem stepResult_halted {s : State} (h : s.cpu.loop = .halted) : stepResult s = some .halt := by
  simp only [stepResult, h]

theorem stepResult_completed {s t : State} (hs : s.cpu.loop = .running) (h : step s = .next t)
    (ht : t.cpu.loop = .running) : stepResult s = some (.continued Config.stepCycles) := by
  simp only [stepResult, hs, h, ht]

theorem stepResult_faulting {s t : State} {f : Fault} (hs : s.cpu.loop = .running) (h : step s = .next t)
    (ht : t.cpu.loop = .faulted f) : stepResult s = some (.error f) := by
  simp only [stepResult, hs, h, ht]

theorem callerHalt_running {s : State} (h : s.cpu.loop = .running) :
    callerHalt s = { s with cpu := { s.cpu with loop := .halted } } := by
  simp only [callerHalt, h]

/-! ### From the opcode fetch to the operands, on any bus (R140 to R143) -/

section
variable {S : Type} {params : Params} {bus : Bus S} {c : Cpu} {s s' : S} {op : Byte}

theorem memRead_ok {a : Word} {v : Byte} (h : bus.read s a false = (.ok v, s')) :
    memRead bus a c s = (.ok (v, c), s') := by
  simp only [memRead, h]

/-- Once the opcode fetch has answered, the step is that opcode's, with PC one past it. -/
theorem runningStep_fetched (h : bus.read s c.pc false = (.ok op, s')) :
    runningStep params bus c s = executeOpcode params bus c.pc op (c.advance 1) s' := by
  rw [runningStep, stagedBind_ok (memRead_ok h)]
  rfl

theorem executeOpcode_missing_executor {p : Word} (h : (params.opcodeTable op).mnemonic.hasExecutor = false) :
    executeOpcode params bus p op = stagedRaise (.unimplementedOpcode op p) := by
  simp only [executeOpcode, h, if_true]

theorem executeOpcode_illegal_mode {p : Word} (hexec : (params.opcodeTable op).mnemonic.hasExecutor = true)
    (hlegal : legal (params.opcodeTable op).mnemonic (params.opcodeTable op).mode = false) :
    executeOpcode params bus p op = stagedRaise
      (.invalidAddressingMode (params.opcodeTable op).mnemonic (params.opcodeTable op).mode op p) := by
  simp [executeOpcode, hexec, hlegal]

/-- A fault commits no register, and the bus stays as the fault found it. -/
theorem stepOn_faulting {f : Fault} (hrun : c.loop = .running) (h : runningStep params bus c s = (.error f, s')) :
    stepOn params bus c s = some ({ c with loop := .faulted f }, s', .error f) := by
  simp only [stepOn, hrun, h]

/-- An opcode that only raises a fault ends the step with the bus as the opcode fetch left it. -/
theorem stepOn_raising_opcode {f : Fault} (hrun : c.loop = .running) (hfetch : bus.read s c.pc false = (.ok op, s'))
    (hraise : executeOpcode params bus c.pc op = stagedRaise f) :
    stepOn params bus c s = some ({ c with loop := .faulted f }, s', .error f) :=
  stepOn_faulting hrun <| by rw [runningStep_fetched hfetch, hraise, stagedRaise_apply]

end

/-! ### The legal subsets (R59) -/

/-- An instruction whose mnemonic has an executor is of a mode in its legal subset. -/
theorem legal_of_hasExecutor {i : Instr} (h : i.mnemonic.hasExecutor = true) : legal i.mnemonic i.mode = true := by
  cases i with
  | unimplemented op => cases h
  | _ => rfl

/-- Every table entry is the mnemonic and mode of an instruction, whatever its operand bytes. -/
theorem opcodeTable_eq_instr (op : Byte) : ∃ i : Instr, opcodeTable op = ⟨i.mnemonic, i.mode⟩ := by
  obtain ⟨himp, -⟩ | ⟨-, -, make, -, hmake⟩ | ⟨-, -, make, -, hmake⟩ := shape_cases op
  · exact ⟨.unimplemented op, opcodeTable_unimplemented himp⟩
  · obtain ⟨-, -, hentry⟩ := hmake 0
    exact ⟨make 0, hentry⟩
  · obtain ⟨-, -, hentry⟩ := hmake 0 0
    exact ⟨make 0 0, hentry⟩

/-- The second check never fails with the hardware's table. -/
theorem opcodeTable_legal {op : Byte} (h : (opcodeTable op).mnemonic.hasExecutor = true) :
    legal (opcodeTable op).mnemonic (opcodeTable op).mode = true := by
  obtain ⟨i, hentry⟩ := opcodeTable_eq_instr op
  rw [hentry] at h ⊢
  exact legal_of_hasExecutor h

/-! ### The statements -/

/-- Settles O35: Halted's own step changes nothing, and an instruction leaves the loop Running or Faulted
(`exec_next_loop_cases`). -/
theorem haltedIsFinal : Obligations.HaltedIsFinal := by
  refine ⟨fun s h => ⟨step_halted h, stepResult_halted h⟩, fun s t h ht => ?_, fun s h => callerHalt_running h⟩
  obtain ⟨hs, -⟩ | ⟨-, he⟩ := step_next_cases h
  · exact hs
  · obtain hkept | ⟨f, hf⟩ := exec_next_loop_cases he
    · exact hkept.symm.trans ht
    · cases hf.symm.trans ht

/-- Settles O34, by the result of a completed and of a faulting step. -/
theorem completedStepsReturnThePlaceholder : Obligations.CompletedStepsReturnThePlaceholder :=
  fun _ _ hs h => ⟨stepResult_completed hs h, fun _ => stepResult_faulting hs h⟩

/-- Settles O47: the first check raises before the dispatch. -/
theorem missingExecutorFaultsBeforeOperands : Obligations.MissingExecutorFaultsBeforeOperands :=
  fun _ _ _ _ _ _ _ hrun hfetch hexec =>
    ⟨_, stepOn_raising_opcode hrun hfetch (executeOpcode_missing_executor hexec), rfl⟩

/-- Settles O48: the second check raises before the dispatch, and no entry of the hardware's table fails it. -/
theorem illegalModeFaultsBeforeOperands : Obligations.IllegalModeFaultsBeforeOperands :=
  ⟨fun _ _ _ _ _ _ _ hrun hfetch hexec hlegal =>
    ⟨_, stepOn_raising_opcode hrun hfetch (executeOpcode_illegal_mode hexec hlegal), rfl⟩, fun _ => opcodeTable_legal⟩

end Sys2Proof.Machine

/-! PROOFS. The exceptions family (60_exceptions.md): what holds along a run of any number of steps, and the idleness of
Halted. -/

namespace Sys2Proof.Machine
open Sys2Proof.Claims

/-! ### Runs of any number of steps (R171) -/

/-- What every step keeps holds of every state reached. -/
theorem reaches_keeps {P : State → Prop} (hkeep : ∀ {t u : State}, P t → step t = .next u → P u) {s t : State}
    (h : Reaches s t) (hs : P s) : P t := by
  induction h with
  | refl => exact hs
  | step _ hstep ih => exact hkeep ih hstep

/-- The only state a step from Halted answers is the state itself. -/
theorem step_next_of_halted {s t : State} (hs : s.cpu.loop = .halted) (h : step s = .next t) : t = s :=
  Host.Outcome.next.inj (h.symm.trans (step_halted hs))

/-- Settles O36: being the Halted state `s` is kept by every step (`step_next_of_halted`), so by every run from it. -/
theorem nothingWakesAHaltedCore : Obligations.NothingWakesAHaltedCore := by
  intro s t hs h
  have hkeep : ∀ {u v : State}, u = s → step u = .next v → v = s := by
    rintro u v rfl hstep
    exact step_next_of_halted hs hstep
  exact reaches_keeps hkeep h rfl

end Sys2Proof.Machine

/-! PROOFS. The reset family (70_reset_and_hazards.md): the loop state of a launch. -/

namespace Sys2Proof.Machine

/-- R175: the launch fixes the loop state, whatever its free inputs are. -/
@[simp] theorem State.launch_loop (a x y p sp : Byte) (pc : Word) (m : Memory) :
    (State.launch a x y p sp pc m).cpu.loop = .running := rfl

/-- Settles O1: the launch's loop state is Running (`State.launch_loop`), and Running is not a Faulted state. -/
theorem launchStartsRunning : Obligations.LaunchStartsRunning := by
  intro a x y p sp pc m
  have hrun := State.launch_loop a x y p sp pc m
  refine ⟨hrun, fun f hfault => ?_⟩
  have hclash : Loop.running = Loop.faulted f := hrun.symm.trans hfault
  cases hclash

end Sys2Proof.Machine

/-! PROOFS. The encoding (30_encoding.md): the decoder and the encoder invert each other, and the opcode byte fixes the
length of an instruction. -/

namespace Sys2Proof

/-! ### The decoder by the shape of the opcode (R53, R54) -/

theorem decode_f1 {op : Byte} {i : Instr} (h : shapeOf op (opcodeTable op) = some (.f1 i)) (rest : List Byte) :
    decode (op :: rest) = .ok (i, rest) := by
  simp only [decode, h]

theorem decode_f2 {op : Byte} {make : Byte → Instr} (h : shapeOf op (opcodeTable op) = some (.f2 make)) (b : Byte)
    (rest : List Byte) : decode (op :: b :: rest) = .ok (make b, rest) := by
  simp only [decode, h]

theorem decode_f2_missing {op : Byte} {make : Byte → Instr} (h : shapeOf op (opcodeTable op) = some (.f2 make)) :
    decode [op] = .error (.missingOperand op) := by
  simp only [decode, h]

theorem decode_f3 {op : Byte} {make : Byte → Byte → Instr} (h : shapeOf op (opcodeTable op) = some (.f3 make))
    (lo hi : Byte) (rest : List Byte) : decode (op :: lo :: hi :: rest) = .ok (make lo hi, rest) := by
  simp only [decode, h]

theorem decode_f3_missing {op : Byte} {make : Byte → Byte → Instr} (h : shapeOf op (opcodeTable op) = some (.f3 make))
    {rest : List Byte} (hshort : rest.length < 2) : decode (op :: rest) = .error (.missingOperand op) := by
  match rest, hshort with
  | [], _ | [_], _ => simp only [decode, h]

/-! ### What an instruction's own bytes say -/

/-- Every well-formed instruction's bytes are its row's opcode byte and as many operand bytes as its mode's length. -/
theorem encode_row (i : Instr) : Laws.EncodedRow.Statement i := by
  cases i
  case unimplemented op => exact Laws.EncodedRow.unimplemented op
  all_goals exact fun _ => ⟨_, _, rfl, rfl, rfl⟩

/-- A well-formed unimplemented instruction is one byte that the table does not implement. -/
theorem Instr.wf_unimplemented {op : Byte} : (Instr.unimplemented op).wf = true ↔ implemented op = false := by
  simp [Instr.wf]

/-! ### The statements -/

/-- Settles O11: the opcode byte of each row leads back to its own constructor, and an opcode byte outside the rows to
the unimplemented instruction that carries it. -/
theorem decodeInvertsEncode : Obligations.DecodeInvertsEncode := by
  intro i rest hwf
  cases i
  case unimplemented op =>
    have hentry := opcodeTable_unimplemented (Instr.wf_unimplemented.mp hwf)
    exact decode_f1 (by rw [hentry]; rfl) rest
  all_goals rfl

/-- Settles O12: the shape of the opcode byte says which bytes the instruction was made of (`shape_cases`). -/
theorem encodeInvertsDecode : Obligations.EncodeInvertsDecode := by
  rintro (_ | ⟨op, tail⟩) rest i hdec
  · cases hdec
  obtain ⟨himp, hshape⟩ | ⟨-, -, make, hshape, hmake⟩ | ⟨-, -, make, hshape, hmake⟩ := shape_cases op
  · cases (decode_f1 hshape tail).symm.trans hdec
    exact ⟨rfl, Instr.wf_unimplemented.mpr himp⟩
  · match tail with
    | [] => cases (decode_f2_missing hshape).symm.trans hdec
    | b :: tail =>
      cases (decode_f2 hshape b tail).symm.trans hdec
      obtain ⟨henc, hwf, -⟩ := hmake b
      exact ⟨by rw [henc]; rfl, hwf⟩
  · match tail with
    | [] | [_] => cases (decode_f3_missing hshape (by simp)).symm.trans hdec
    | lo :: hi :: tail =>
      cases (decode_f3 hshape lo hi tail).symm.trans hdec
      obtain ⟨henc, hwf, -⟩ := hmake lo hi
      exact ⟨by rw [henc]; rfl, hwf⟩

/-- Settles O13: each shape asks for the number of operand bytes that its opcode's mode has. -/
theorem lengthComesFromTheOpcode : Obligations.LengthComesFromTheOpcode := by
  intro op rest
  obtain ⟨himp, hshape⟩ | ⟨-, hlen, make, hshape, hmake⟩ | ⟨-, hlen, make, hshape, hmake⟩ := shape_cases op
  · rw [opcodeTable_unimplemented himp]
    exact ⟨fun _ => ⟨_, decode_f1 hshape rest, rfl⟩, fun hshort => absurd hshort (Nat.not_lt_zero _)⟩
  · rw [hlen]
    match rest with
    | [] => exact ⟨fun henough => absurd henough (by simp), fun _ => decode_f2_missing hshape⟩
    | b :: rest =>
      obtain ⟨henc, -⟩ := hmake b
      exact ⟨fun _ => ⟨_, decode_f2 hshape b rest, by rw [henc]; rfl⟩, fun hshort => absurd hshort (by simp)⟩
  · rw [hlen]
    match rest with
    | [] | [_] => exact ⟨fun henough => absurd henough (by simp), fun _ => decode_f3_missing hshape (by simp)⟩
    | lo :: hi :: rest =>
      obtain ⟨henc, -⟩ := hmake lo hi
      exact ⟨fun _ => ⟨_, decode_f3 hshape lo hi rest, by rw [henc]; rfl⟩, fun hshort => absurd hshort (by simp)⟩

/-- A table word whose bytes begin with those of a well-formed instruction decodes to it. -/
theorem decodeTableWord_of_wordBytes {nbits w : Nat} {i : Instr} {rest : List Byte} (hwf : i.wf = true)
    (h : wordBytes nbits w = encode i ++ rest) : decodeTableWord nbits w = some i := by
  simp only [decodeTableWord, h, decodeInvertsEncode i rest hwf]

/-- What a table word decodes to is what its three bytes decode to. -/
theorem decode_wordBytes {nbits w : Nat} {i : Instr} (h : decodeTableWord nbits w = some i) :
    ∃ rest, decode (wordBytes nbits w) = .ok (i, rest) := by
  unfold decodeTableWord at h
  split at h
  · cases h
    exact ⟨_, ‹_›⟩
  · cases h

/-- Settles O10: each word's bytes are the encoding of its instruction, and the bytes after it. -/
theorem wordsOfTheSpecDecode : Obligations.WordsOfTheSpecDecode :=
  ⟨decodeTableWord_of_wordBytes (rest := [0]) rfl rfl, decodeTableWord_of_wordBytes (rest := []) rfl rfl,
    decodeTableWord_of_wordBytes (rest := [0]) rfl rfl, decodeTableWord_of_wordBytes (rest := []) rfl rfl,
    decodeTableWord_of_wordBytes (rest := []) rfl rfl, decodeTableWord_of_wordBytes (rest := [0]) rfl rfl,
    decodeTableWord_of_wordBytes (rest := [0]) rfl rfl, decodeTableWord_of_wordBytes (rest := []) rfl rfl,
    decodeTableWord_of_wordBytes (rest := [0]) rfl rfl, decodeTableWord_of_wordBytes (rest := [0, 0]) rfl rfl⟩

/-! ### The table (R58 to R60) -/

/-- An implemented opcode's mnemonic has an executor. -/
theorem hasExecutor_of_implemented {op : Byte} (h : implemented op = true) :
    (opcodeTable op).mnemonic.hasExecutor = true := by
  obtain ⟨r, hr, rfl⟩ := (implemented_iff op).mp h
  exact (by decide : ∀ r ∈ opcodeRows, (opcodeTable r.opcode).mnemonic.hasExecutor = true) r hr

/-- The implemented bytes, as numbers, are the opcodes of the rows, no two of which are the same. -/
theorem implementedBytes_perm :
    ((List.range 256).filter fun n => implemented (BitVec.ofNat 8 n)).Perm (opcodeRows.map fun r => r.opcode.toNat) := by
  refine (List.perm_ext_iff_of_nodup (List.nodup_range.filter _) (by decide)).mpr fun n => ?_
  rw [List.mem_filter, List.mem_range, implemented_iff, List.mem_map]
  constructor
  · rintro ⟨hn, r, hr, hop⟩
    exact ⟨r, hr, by rw [hop, BitVec.toNat_ofNat, Nat.mod_eq_of_lt hn]⟩
  · rintro ⟨r, hr, rfl⟩
    exact ⟨r.opcode.isLt, r, hr, (BitVec.ofNat_toNat 8 r.opcode).symm⟩

/-- The bytes that are not are the other 225 of 256. -/
theorem unimplementedBytes_length :
    ((List.range 256).filter fun n => !implemented (BitVec.ofNat 8 n)).length = 225 := by
  have hsplit := List.length_eq_length_filter_add (l := List.range 256) fun n => implemented (BitVec.ofNat 8 n)
  have hrows : (opcodeRows.map fun r => r.opcode.toNat).length = 31 := rfl
  rw [List.length_range, implementedBytes_perm.length_eq, hrows] at hsplit
  omega

/-- Settles O14: an implemented opcode's entry passes both checks of the loop, and the rows' opcodes are all different. -/
theorem opcodeTableIsTotalAndLegal : Obligations.OpcodeTableIsTotalAndLegal :=
  ⟨fun _ => ⟨fun himp =>
      ⟨hasExecutor_of_implemented himp, Machine.opcodeTable_legal (hasExecutor_of_implemented himp)⟩,
    opcodeTable_unimplemented⟩, rfl, unimplementedBytes_length⟩

end Sys2Proof

/-! PROOFS. The memory (20_memory.md section 1): the reference bus is plain storage, and canonical memories are the maps
from addresses to bytes. -/

namespace Sys2Proof.Machine

/-! ### Equal reads make equal memories (R36) -/

/-- In canonical form every listed address is a 16-bit address. -/
theorem Memory.lt_of_mem {m : Memory} (hm : Memory.wf m = true) : ∀ c ∈ m, c.1 < 65536 := by
  induction m with
  | nil => simp
  | cons c m ih =>
    obtain ⟨hk, -, -, hwf⟩ := Memory.wf_cons.mp hm
    exact List.forall_mem_cons.mpr ⟨hk, ih hwf⟩

theorem Memory.read_of_ge {m : Memory} (hm : Memory.wf m = true) {a : Nat} (ha : 65536 ≤ a) :
    Memory.read m a = Memory.unlisted :=
  Memory.read_of_not_listed fun c hc => Nat.ne_of_lt (Nat.lt_of_lt_of_le (Memory.lt_of_mem hm c hc) ha)

theorem Memory.read_cons_same (k : Nat) (w : Byte) (m : Memory) : Memory.read ((k, w) :: m) k = w := if_pos rfl

theorem Memory.read_cons_other {a k : Nat} (h : a ≠ k) (w : Byte) (m : Memory) :
    Memory.read ((k, w) :: m) a = Memory.read m a := if_neg h

/-- Below its first entry a canonical memory lists nothing. -/
theorem Memory.read_below {k a : Nat} {w : Byte} {m : Memory} (hm : Memory.wf ((k, w) :: m) = true) (ha : a < k) :
    Memory.read ((k, w) :: m) a = Memory.unlisted := by
  obtain ⟨-, -, hk, -⟩ := Memory.wf_cons.mp hm
  rw [Memory.read_cons_other (Nat.ne_of_lt ha)]
  exact Memory.read_of_not_listed fun c hc => Nat.ne_of_gt (Nat.lt_trans ha (hk c hc))

/-- A canonical memory's first entry is read as something else by every canonical memory that begins above it. -/
theorem Memory.first_le {k k' : Nat} {w w' : Byte} {m m' : Memory} (hm : Memory.wf ((k, w) :: m) = true)
    (hm' : Memory.wf ((k', w') :: m') = true)
    (h : ∀ a, Memory.read ((k, w) :: m) a = Memory.read ((k', w') :: m') a) : k' ≤ k := by
  refine Nat.le_of_not_lt fun hlt => ?_
  obtain ⟨-, hw, -, -⟩ := Memory.wf_cons.mp hm
  exact hw ((Memory.read_cons_same k w m).symm.trans ((h k).trans (Memory.read_below hm' hlt)))

/-- Canonical memories with the same byte at every address are the same list: their first entries agree, and so do the
reads of the rest. -/
theorem Memory.eq_of_read_eq {m m' : Memory} (hm : Memory.wf m = true) (hm' : Memory.wf m' = true)
    (h : ∀ a, Memory.read m a = Memory.read m' a) : m = m' := by
  induction m generalizing m' with
  | nil =>
    match m' with
    | [] => rfl
    | (k, w) :: m' =>
      obtain ⟨-, hw, -, -⟩ := Memory.wf_cons.mp hm'
      exact absurd ((Memory.read_cons_same k w m').symm.trans (h k).symm) hw
  | cons c m ih =>
    obtain ⟨k, w⟩ := c
    obtain ⟨-, hw, hk, hwf⟩ := Memory.wf_cons.mp hm
    match m' with
    | [] => exact absurd ((Memory.read_cons_same k w m).symm.trans (h k)) hw
    | (k', w') :: m' =>
      obtain rfl : k' = k := Nat.le_antisymm (Memory.first_le hm hm' h) (Memory.first_le hm' hm fun a => (h a).symm)
      obtain ⟨-, -, hk', hwf'⟩ := Memory.wf_cons.mp hm'
      have hfirst := h k'
      rw [Memory.read_cons_same, Memory.read_cons_same] at hfirst
      have hrest : m = m' := ih hwf hwf' fun a => by
        by_cases ha : a = k'
        · rw [ha, Memory.read_of_not_listed fun c hc => Nat.ne_of_gt (hk c hc),
            Memory.read_of_not_listed fun c hc => Nat.ne_of_gt (hk' c hc)]
        · have hboth := h a
          rwa [Memory.read_cons_other ha, Memory.read_cons_other ha] at hboth
      rw [hfirst, hrest]

/-! ### A memory for every byte map (R38, R174) -/

/-- The canonical memory that holds `g`'s bytes at the addresses below `n`, and lists no other. -/
def Memory.ofMap (g : Word → Byte) : Nat → Memory
  | 0 => []
  | n + 1 => Memory.write (Memory.ofMap g n) n (g (BitVec.ofNat 16 n))

theorem Memory.wf_ofMap (g : Word → Byte) {n : Nat} (hn : n ≤ 65536) : Memory.wf (Memory.ofMap g n) = true := by
  induction n with
  | zero => rfl
  | succ n ih => exact Memory.wf_write (ih (Nat.le_of_succ_le hn)) hn _

theorem Memory.read_ofMap (g : Word → Byte) {n : Nat} (hn : n ≤ 65536) {a : Word} (ha : a.toNat < n) :
    Memory.read (Memory.ofMap g n) a.toNat = g a := by
  induction n with
  | zero => exact absurd ha (Nat.not_lt_zero _)
  | succ n ih =>
    have hn' : n ≤ 65536 := Nat.le_of_succ_le hn
    obtain hlt | rfl := Nat.lt_succ_iff_lt_or_eq.mp ha
    · exact (Memory.read_write_other _ _ (Nat.ne_of_lt hlt)).trans (ih hn' hlt)
    · exact (Memory.read_write_same (Memory.wf_ofMap g hn') _ _).trans (by simp)

/-! ### The statements -/

/-- Settles O8, by the laws of a memory write. -/
theorem referenceBusIsPlainStorage : Obligations.ReferenceBusIsPlainStorage := fun m a v _ hm =>
  ⟨rfl, _, rfl, Memory.wf_write hm a.isLt v, Memory.read_write_same hm a.toNat v,
    fun _ hb => Memory.read_write_other m v fun e => hb (BitVec.eq_of_toNat_eq e)⟩

/-- Settles O9: the map's bytes written one after another are such a memory, and canonical memories with equal reads are
equal. -/
theorem everyByteMapIsOneMemory : Obligations.EveryByteMapIsOneMemory := by
  intro g
  have hwf := Memory.wf_ofMap g (Nat.le_refl 65536)
  have hread (a : Word) := Memory.read_ofMap g (Nat.le_refl 65536) a.isLt
  refine ⟨Memory.ofMap g 65536, ⟨hwf, hread⟩, fun m' ⟨hwf', hread'⟩ => Memory.eq_of_read_eq hwf' hwf fun a => ?_⟩
  by_cases ha : a < 65536
  · have hword : (BitVec.ofNat 16 a).toNat = a := (BitVec.toNat_ofNat a 16).trans (Nat.mod_eq_of_lt ha)
    rw [← hword, hread', hread]
  · rw [Memory.read_of_ge hwf' (Nat.le_of_not_lt ha), Memory.read_of_ge hwf (Nat.le_of_not_lt ha)]

end Sys2Proof.Machine

/-! PROOFS. Values on the reference bus (00_scope.md section 5, 40_addressing.md section 2): sums, extensions and
`hi:lo` on unsigned values, and the two places of a pointer's high byte. -/

namespace Sys2Proof.Machine

theorem hilo_toNat (lo hi : Byte) : (hilo lo hi).toNat = hi.toNat * 256 + lo.toNat := by
  rw [hilo, BitVec.toNat_append, ← Nat.shiftLeft_add_eq_or_of_lt lo.isLt, Nat.shiftLeft_eq]

/-- Settles O4, by the laws of bit vectors. -/
theorem valueNotationIsModular : Obligations.ValueNotationIsModular :=
  ⟨BitVec.toNat_add, BitVec.toNat_add, zext16_toNat, fun _ => BitVec.toInt_signExtend_of_le (by decide), hilo_toNat⟩

/-- With the wrap, the byte after a pointer's low byte is again in page 0. -/
theorem pointerHighAddr_true_toNat (p : Byte) : (pointerHighAddr true p).toNat = (p.toNat + 1) % 256 :=
  (zext16_toNat (p + 1#8)).trans (BitVec.toNat_add p 1#8)

/-- Without the wrap, it is the next address. -/
theorem pointerHighAddr_false_toNat (p : Byte) : (pointerHighAddr false p).toNat = p.toNat + 1 := by
  have hp : p.toNat < 256 := p.isLt
  calc (pointerHighAddr false p).toNat
    _ = ((zext16 p).toNat + 1) % 65536  := BitVec.toNat_add (zext16 p) 1#16
    _ = p.toNat + 1                     := by rw [zext16_toNat]; omega

/-- Settles O55: the high byte's address under each setting, equal below 0xFF. -/
theorem zeroPagePointersUnderBothWraps : Obligations.ZeroPagePointersUnderBothWraps := by
  intro p c m
  simp only [readPointer_reference, pointerHighAddr_true_toNat, pointerHighAddr_false_toNat, true_and]
  intro hp
  have hbelow : p.toNat + 1 < 256 := by bv_omega
  rw [Nat.mod_eq_of_lt hbelow]

end Sys2Proof.Machine

/-! PROOFS. What an instruction does, apart from its row of the table: four actions over a register, an immediate byte or
a memory operand. Every function of an instruction that the statements speak of is a function of its action. -/

namespace Sys2Proof.Machine
open Sys2Proof.Claims

/-! ### Actions -/

/-- What an instruction does: a load of an immediate byte, a load or a store at a memory operand, or no executor. -/
inductive Action where
  | loadImm (r : Reg) (b : Byte)
  | loadMem (r : Reg) (o : MemOperand)
  | storeMem (r : Reg) (o : MemOperand)
  | unimplemented (opcode : Byte)

/-- The action of each instruction (R102 to R119, R125 to R137, R142). -/
def actionOf : Instr → Action
  | .ldaImm b => .loadImm .a b
  | .ldaZp b => .loadMem .a (.zeroPage b)
  | .ldaZpX b => .loadMem .a (.zeroPageX b)
  | .ldaAbs lo hi => .loadMem .a (.absolute lo hi)
  | .ldaAbsX lo hi => .loadMem .a (.absoluteX lo hi)
  | .ldaAbsY lo hi => .loadMem .a (.absoluteY lo hi)
  | .ldaIndX b => .loadMem .a (.indirectX b)
  | .ldaIndY b => .loadMem .a (.indirectY b)
  | .ldxImm b => .loadImm .x b
  | .ldxZp b => .loadMem .x (.zeroPage b)
  | .ldxZpY b => .loadMem .x (.zeroPageY b)
  | .ldxAbs lo hi => .loadMem .x (.absolute lo hi)
  | .ldxAbsY lo hi => .loadMem .x (.absoluteY lo hi)
  | .ldyImm b => .loadImm .y b
  | .ldyZp b => .loadMem .y (.zeroPage b)
  | .ldyZpX b => .loadMem .y (.zeroPageX b)
  | .ldyAbs lo hi => .loadMem .y (.absolute lo hi)
  | .ldyAbsX lo hi => .loadMem .y (.absoluteX lo hi)
  | .staZp b => .storeMem .a (.zeroPage b)
  | .staZpX b => .storeMem .a (.zeroPageX b)
  | .staAbs lo hi => .storeMem .a (.absolute lo hi)
  | .staAbsX lo hi => .storeMem .a (.absoluteX lo hi)
  | .staAbsY lo hi => .storeMem .a (.absoluteY lo hi)
  | .staIndX b => .storeMem .a (.indirectX b)
  | .staIndY b => .storeMem .a (.indirectY b)
  | .stxZp b => .storeMem .x (.zeroPage b)
  | .stxZpY b => .storeMem .x (.zeroPageY b)
  | .stxAbs lo hi => .storeMem .x (.absolute lo hi)
  | .styZp b => .storeMem .y (.zeroPage b)
  | .styZpX b => .storeMem .y (.zeroPageX b)
  | .styAbs lo hi => .storeMem .y (.absolute lo hi)
  | .unimplemented op => .unimplemented op

/-- The meaning of an action. -/
def Action.exec : Action → State → Host.Outcome State Fault Refusal
  | .loadImm r b => Machine.loadImm r b
  | .loadMem r o => Machine.loadMem r o
  | .storeMem r o => Machine.storeMem r o
  | .unimplemented op => execUnimplemented op

/-- The register an action loads. -/
def Action.target : Action → Option Reg
  | .loadImm r _ | .loadMem r _ => some r
  | .storeMem _ _ | .unimplemented _ => none

/-- The address an action stores to. -/
def Action.storeAddress (s : State) : Action → Option Word
  | .storeMem _ o => some (o.addr s)
  | .loadImm _ _ | .loadMem _ _ | .unimplemented _ => none

theorem exec_eq_action (i : Instr) (s : State) : exec i s = (actionOf i).exec s := by cases i <;> rfl

theorem loadTarget_eq_action (i : Instr) : loadTarget i = (actionOf i).target := by cases i <;> rfl

theorem storeAddress_eq_action (i : Instr) (s : State) : storeAddress i s = (actionOf i).storeAddress s := by
  cases i <;> rfl

/-- Only the unimplemented instruction has no executor. -/
theorem actionOf_eq_unimplemented {i : Instr} {op : Byte} (h : actionOf i = .unimplemented op) :
    i = .unimplemented op := by
  cases i <;> cases h
  rfl

/-- Every instruction answers a next state. -/
theorem exec_next (i : Instr) (s : State) : ∃ t, exec i s = .next t := by
  obtain ⟨t, ht, -⟩ := exec_withSp i s
  exact ⟨t, ht⟩

/-! ### The frames of a load and of a store (R97, R98, R120, R121) -/

theorem loadByte_loaded (r : Reg) (v : Byte) (n : Nat) (s : State) : ∃ t, loadByte r v n s = .next t ∧ Loaded r v n s t :=
  ⟨_, loadByte_eq r v n s,
    { target := by simp
      zero := by simp
      negative := by simp
      pc := by simp
      otherRegs := fun q hq => by simp [Cpu.get_load_other s.cpu hq]
      otherFlags := fun f hz hn => by simp [testFlag_updateZN_other hz hn]
      sp := by simp
      loop := by simp
      memory := fun a => by simp }⟩

theorem loadImm_loaded (r : Reg) (b : Byte) (s : State) : ∃ t, loadImm r b s = .next t ∧ Loaded r b 2 s t :=
  loadByte_loaded r b 2 s

theorem loadMem_loaded (r : Reg) (o : MemOperand) (s : State) :
    ∃ t, loadMem r o s = .next t ∧ Loaded r (s.readByte (o.addr s)) o.bytes s t :=
  loadByte_loaded r (o.value s) o.bytes s

theorem storeMem_stored (r : Reg) (o : MemOperand) {s : State} (hm : Memory.wf s.mem = true) :
    ∃ t, storeMem r o s = .next t ∧ Stored r (o.addr s) o.bytes s t :=
  ⟨_, storeMem_eq r o s,
    { byte := State.readByte_writeByte_same hm (o.addr s) (s.cpu.get r)
      pc := by simp
      regs := fun q => by simp
      status := by simp
      sp := by simp
      loop := by simp
      memory := fun _ ha => State.readByte_writeByte_other s (s.cpu.get r) ha }⟩

/-! ### The statements about single instructions -/

/-- Settles O15: the address forms are read off their definitions, with ZP_PTR_WRAP true, and LDA Immediate loads its
byte. -/
theorem operandsAreAssembledUnsigned : Obligations.OperandsAreAssembledUnsigned := by
  intro s b lo hi
  obtain ⟨t, ht, hloaded⟩ := loadImm_loaded .a b s
  exact ⟨⟨t, ht, hloaded.target⟩, rfl, rfl, rfl, rfl, rfl, rfl, rfl, rfl⟩

/-- Settles O16: an immediate load, and a load of each of LDA's memory operands. -/
theorem ldaLoadsA : Obligations.LdaLoadsA := fun s b lo hi =>
  ⟨loadImm_loaded .a b s, loadMem_loaded .a (.zeroPage b) s, loadMem_loaded .a (.zeroPageX b) s,
    loadMem_loaded .a (.absolute lo hi) s, loadMem_loaded .a (.absoluteX lo hi) s, loadMem_loaded .a (.absoluteY lo hi) s,
    loadMem_loaded .a (.indirectX b) s, loadMem_loaded .a (.indirectY b) s⟩

/-- Settles O17: an immediate load, and a load of each of LDX's memory operands. -/
theorem ldxLoadsX : Obligations.LdxLoadsX := fun s b lo hi =>
  ⟨loadImm_loaded .x b s, loadMem_loaded .x (.zeroPage b) s, loadMem_loaded .x (.zeroPageY b) s,
    loadMem_loaded .x (.absolute lo hi) s, loadMem_loaded .x (.absoluteY lo hi) s⟩

/-- Settles O18: an immediate load, and a load of each of LDY's memory operands. -/
theorem ldyLoadsY : Obligations.LdyLoadsY := fun s b lo hi =>
  ⟨loadImm_loaded .y b s, loadMem_loaded .y (.zeroPage b) s, loadMem_loaded .y (.zeroPageX b) s,
    loadMem_loaded .y (.absolute lo hi) s, loadMem_loaded .y (.absoluteX lo hi) s⟩

/-- Settles O21: a store at each of STA's memory operands. -/
theorem staStoresA : Obligations.StaStoresA := fun _ b lo hi hm =>
  ⟨storeMem_stored .a (.zeroPage b) hm, storeMem_stored .a (.zeroPageX b) hm, storeMem_stored .a (.absolute lo hi) hm,
    storeMem_stored .a (.absoluteX lo hi) hm, storeMem_stored .a (.absoluteY lo hi) hm,
    storeMem_stored .a (.indirectX b) hm, storeMem_stored .a (.indirectY b) hm⟩

/-- Settles O22: a store at each of STX's memory operands. -/
theorem stxStoresX : Obligations.StxStoresX := fun _ b lo hi hm =>
  ⟨storeMem_stored .x (.zeroPage b) hm, storeMem_stored .x (.zeroPageY b) hm, storeMem_stored .x (.absolute lo hi) hm⟩

/-- Settles O23: a store at each of STY's memory operands. -/
theorem styStoresY : Obligations.StyStoresY := fun _ b lo hi hm =>
  ⟨storeMem_stored .y (.zeroPage b) hm, storeMem_stored .y (.zeroPageX b) hm, storeMem_stored .y (.absolute lo hi) hm⟩

/-- Settles O25: the store's address is the PC it ends with. -/
theorem storedByteIsTheNextOpcode : Obligations.StoredByteIsTheNextOpcode := by
  intro s lo hi hm hnext
  obtain ⟨t, ht, hstored⟩ := storeMem_stored .a (.absolute lo hi) hm
  have hpc : t.cpu.pc = (MemOperand.absolute lo hi).addr s := hstored.pc.trans hnext.symm
  exact ⟨t, ht, by rw [hpc]; exact hstored.byte⟩

/-- Settles O26: taking a fault changes the loop alone (`raiseFault_eq`). -/
theorem unimplementedTakesItsFault : Obligations.UnimplementedTakesItsFault := fun _ s =>
  ⟨_, raiseFault_eq _ s, rfl, rfl, rfl, rfl, rfl, rfl, rfl, fun _ => rfl⟩

/-! ### The statements about every instruction -/

/-- A load changes its register, Z, N and PC alone. -/
theorem exec_loaded {i : Instr} {r : Reg} (h : loadTarget i = some r) (s : State) :
    ∃ v n t, exec i s = .next t ∧ Loaded r v n s t := by
  obtain ⟨b, hi⟩ | ⟨o, hi⟩ := exec_load_form h
  · exact ⟨_, _, hi s ▸ loadImm_loaded r b s⟩
  · exact ⟨_, _, hi s ▸ loadMem_loaded r o s⟩

/-- An instruction that loads nothing stores at an operand's address, or is unimplemented. -/
theorem actionOf_nonload {i : Instr} (h : loadTarget i = none) :
    (∃ r o, actionOf i = .storeMem r o) ∨ ∃ op, i = .unimplemented op := by
  rw [loadTarget_eq_action] at h
  cases haction : actionOf i with
  | loadImm | loadMem => rw [haction] at h; cases h
  | storeMem r o => exact .inl ⟨r, o, rfl⟩
  | unimplemented op => exact .inr ⟨op, actionOf_eq_unimplemented haction⟩

/-- Settles O28: only a store writes memory, one byte at its address. -/
theorem memoryChangesOnlyAtTheStoreAddress : Obligations.MemoryChangesOnlyAtTheStoreAddress := by
  intro i s
  cases hi : loadTarget i with
  | some r =>
    obtain ⟨v, n, t, ht, hloaded⟩ := exec_loaded hi s
    exact ⟨t, ht, fun a _ => hloaded.memory a⟩
  | none =>
    obtain ⟨r, o, haction⟩ | ⟨op, rfl⟩ := actionOf_nonload hi
    · rw [exec_eq_action, storeAddress_eq_action, haction]
      exact ⟨_, storeMem_eq r o s, fun a ha =>
        State.readByte_writeByte_other s (s.cpu.get r) fun e => ha (congrArg some e.symm)⟩
    · exact ⟨_, raiseFault_eq _ s, fun _ _ => rfl⟩

/-- Settles O29: the frames of a load, of a store and of taking a fault. -/
theorem registersChangeOnlyAsNamed : Obligations.RegistersChangeOnlyAsNamed := by
  intro i s
  cases hi : loadTarget i with
  | some r =>
    obtain ⟨v, n, t, ht, hloaded⟩ := exec_loaded hi s
    exact ⟨t, ht, fun q hq => hloaded.otherRegs q fun e => hq (congrArg some e.symm), hloaded.sp, nofun,
      hloaded.otherFlags, fun _ => hloaded.loop⟩
  | none =>
    obtain ⟨r, o, haction⟩ | ⟨op, rfl⟩ := actionOf_nonload hi
    · rw [exec_eq_action, haction]
      exact ⟨_, storeMem_eq r o s, fun q _ => Cpu.advance_get s.cpu _ q, rfl, fun _ => rfl, fun _ _ _ => rfl,
        fun _ => rfl⟩
    · exact ⟨_, raiseFault_eq _ s, fun q _ => by cases q <;> rfl, rfl, fun _ => rfl, fun _ _ _ => rfl,
        fun hmn => absurd rfl hmn⟩

end Sys2Proof.Machine

/-! PROOFS. The step on the hardware's table (44_execution_loop.md, 60_exceptions.md): the instruction it fetches is what
the bytes at PC decode to; the invariant; the results. -/

namespace Sys2Proof.Machine
open Sys2Proof.Claims

/-! ### The fetched instruction is the decoded one (R53, R140 to R143) -/

/-- The three bytes from PC on, all that an instruction there can consist of. -/
def State.bytesAtPc (s : State) : List Byte :=
  [s.readByte s.cpu.pc, s.readByte (s.cpu.pc + 1#16), s.readByte (s.cpu.pc + 2#16)]

/-- The three bytes always decode, to the instruction that is fetched. -/
theorem decode_bytesAtPc (s : State) : ∃ rest, decode s.bytesAtPc = .ok (fetchInstr s, rest) := by
  obtain ⟨-, hshape⟩ | ⟨-, -, make, hshape, -⟩ | ⟨-, -, make, hshape, -⟩ := shape_cases (s.readByte s.cpu.pc)
  · exact ⟨_, by simp only [fetchInstr, hshape]; exact decode_f1 hshape _⟩
  · exact ⟨_, by simp only [fetchInstr, hshape]; exact decode_f2 hshape _ _⟩
  · exact ⟨_, by simp only [fetchInstr, hshape]; exact decode_f3 hshape _ _ _⟩

theorem fetchInstr_of_decode {s : State} {i : Instr} {rest : List Byte} (h : decode s.bytesAtPc = .ok (i, rest)) :
    fetchInstr s = i := by
  obtain ⟨rest', hfetch⟩ := decode_bytesAtPc s
  cases hfetch.symm.trans h
  rfl

/-- The fetched instruction is well formed, and its own bytes are those at PC. -/
theorem bytesAtPc_eq_encode (s : State) :
    ∃ rest, s.bytesAtPc = encode (fetchInstr s) ++ rest ∧ (fetchInstr s).wf = true := by
  obtain ⟨rest, hfetch⟩ := decode_bytesAtPc s
  exact ⟨rest, encodeInvertsDecode _ rest _ hfetch⟩

/-- The table entry of the byte at PC is the fetched instruction's row, and its mode gives the instruction's length. -/
theorem fetchInstr_row (s : State) :
    opcodeTable (s.readByte s.cpu.pc) = ⟨(fetchInstr s).mnemonic, (fetchInstr s).mode⟩ ∧
      (encode (fetchInstr s)).length = (fetchInstr s).mode.len.getD 0 + 1 := by
  obtain ⟨rest, hbytes, hwf⟩ := bytesAtPc_eq_encode s
  obtain ⟨op, operands, henc, hentry, hlen⟩ := encode_row (fetchInstr s) hwf
  rw [henc] at hbytes
  obtain ⟨rfl, -⟩ := List.cons.inj hbytes
  exact ⟨hentry, by rw [henc, List.length_cons, hlen]⟩

theorem fetchInstr_of_not_implemented {s : State} (h : implemented (s.readByte s.cpu.pc) = false) :
    fetchInstr s = .unimplemented (s.readByte s.cpu.pc) := by
  simp only [fetchInstr, opcodeTable_unimplemented h, shapeOf]

/-- The unimplemented instruction is fetched for a byte at PC outside the table alone, and carries it. -/
theorem fetchInstr_eq_unimplemented {s : State} {op : Byte} (h : fetchInstr s = .unimplemented op) :
    s.readByte s.cpu.pc = op ∧ implemented op = false := by
  obtain ⟨rest, hbytes, hwf⟩ := bytesAtPc_eq_encode s
  rw [h] at hbytes hwf
  obtain ⟨hop, -⟩ := List.cons.inj hbytes
  exact ⟨hop, Instr.wf_unimplemented.mp hwf⟩

/-- Settles O30, by `fetchInstr_of_decode`. -/
theorem stepRunsTheDecodedInstruction : Obligations.StepRunsTheDecodedInstruction := by
  intro s i rest hrun hdec
  rw [step_running hrun, fetchInstr_of_decode hdec]

/-! ### The loader (log entry 5) -/

/-- Placing a table word makes its bytes the bytes at PC. -/
theorem bytesAtPc_placeWord {s : State} (hm : Memory.wf s.mem = true) (nbits w : Nat) :
    (placeWord s nbits w).bytesAtPc = wordBytes nbits w := by
  have h01 : s.cpu.pc ≠ s.cpu.pc + 1#16 := by bv_omega
  have h02 : s.cpu.pc ≠ s.cpu.pc + 2#16 := by bv_omega
  have h12 : s.cpu.pc + 1#16 ≠ s.cpu.pc + 2#16 := by bv_omega
  have hm1 (v : Byte) := State.writeByte_wf hm s.cpu.pc v
  have hm2 (v u : Byte) := State.writeByte_wf (hm1 v) (s.cpu.pc + 1#16) u
  have hop : (placeWord s nbits w).readByte s.cpu.pc = BitVec.ofNat 8 (w % 2 ^ nbits) :=
    (State.readByte_writeByte_other _ _ h02).trans
      ((State.readByte_writeByte_other _ _ h01).trans (State.readByte_writeByte_same hm _ _))
  have hlo : (placeWord s nbits w).readByte (s.cpu.pc + 1#16) = BitVec.ofNat 8 (w % 2 ^ nbits / 256) :=
    (State.readByte_writeByte_other _ _ h12).trans (State.readByte_writeByte_same (hm1 _) _ _)
  have hhi : (placeWord s nbits w).readByte (s.cpu.pc + 2#16) = BitVec.ofNat 8 (w % 2 ^ nbits / 65536) :=
    State.readByte_writeByte_same (hm2 _ _) _ _
  rw [wordBytes, ← hop, ← hlo, ← hhi]
  rfl

/-- Settles O31: the placed bytes are what the next step decodes, and the three writes touch no other byte. -/
theorem placedWordIsRunNext : Obligations.PlacedWordIsRunNext := by
  intro s nbits w i hm hword
  obtain ⟨rest, hdec⟩ := decode_wordBytes hword
  refine ⟨stepRunsTheDecodedInstruction _ i rest rfl ((congrArg decode (bytesAtPc_placeWord hm nbits w)).trans hdec), rfl,
    fun a h0 h1 h2 => ?_⟩
  exact (State.readByte_writeByte_other _ _ h2).trans
    ((State.readByte_writeByte_other _ _ h1).trans (State.readByte_writeByte_other _ _ h0))

/-! ### Which states step, and where to -/

/-- A Running state answers the next state of the instruction at PC. -/
theorem step_running_next {s : State} (h : s.cpu.loop = .running) :
    ∃ t, step s = .next t ∧ exec (fetchInstr s) s = .next t := by
  obtain ⟨t, ht⟩ := exec_next (fetchInstr s) s
  exact ⟨t, (step_running h).trans ht, ht⟩

theorem State.steps_iff {s : State} : s.steps = true ↔ s.cpu.loop = .running ∨ s.cpu.loop = .halted := by
  unfold State.steps
  cases s.cpu.loop <;> simp

/-- Every state that steps answers a next state. -/
theorem step_next_of_steps {s : State} (h : s.steps = true) : ∃ t, step s = .next t := by
  obtain hrun | hhalt := State.steps_iff.mp h
  · obtain ⟨t, ht, -⟩ := step_running_next hrun
    exact ⟨t, ht⟩
  · exact ⟨s, step_halted hhalt⟩

/-- Settles O32: Running and Halted answer a next state, Faulted its own fault. -/
theorem everyUnfaultedStateSteps : Obligations.EveryUnfaultedStateSteps := by
  intro s
  refine ⟨step_next_of_steps, ?_⟩
  cases hl : s.cpu.loop with
  | running | halted =>
    obtain ⟨t, ht⟩ := step_next_of_steps (s := s) (State.steps_iff.mpr (by simp [hl]))
    simp [ht]
  | faulted f => simp [step_faulted hl]

/-- Settles O27: the step takes the fault of the unimplemented instruction with the byte at PC. -/
theorem everyOtherByteIsUnimplemented : Obligations.EveryOtherByteIsUnimplemented := by
  intro s hrun himp
  have hstep := step_running hrun
  rw [fetchInstr_of_not_implemented himp] at hstep
  exact ⟨_, hstep, stepResult_faulting hrun hstep rfl, rfl⟩

/-- An implemented opcode's mode has one or two operand bytes. -/
theorem opcodeTable_len {op : Byte} (h : implemented op = true) :
    (opcodeTable op).mode.len = some 1 ∨ (opcodeTable op).mode.len = some 2 := by
  obtain ⟨himp, -⟩ | ⟨-, hlen, -⟩ | ⟨-, hlen, -⟩ := shape_cases op
  · cases himp.symm.trans h
  · exact .inl hlen
  · exact .inr hlen

/-- An instruction that is not unimplemented passes its own bytes and keeps the loop. -/
theorem exec_completes {i : Instr} (hi : ∀ op, i ≠ .unimplemented op) (s : State) :
    ∃ t, exec i s = .next t ∧ t.cpu.pc = s.cpu.pc + BitVec.ofNat 16 (encode i).length ∧
      t.cpu.loop = s.cpu.loop := by
  obtain ⟨r, v, he⟩ | ⟨r, o, he, hlen⟩ | ⟨op, hop, -⟩ := exec_cases i s
  · exact ⟨_, he.trans (loadByte_eq r v _ s), by simp, by simp⟩
  · exact ⟨_, he.trans (storeMem_eq r o s), by simp [hlen], by simp⟩
  · exact absurd hop (hi op)

/-- Settles O33: the fetched instruction completes and passes its bytes, as many as its opcode's mode says. -/
theorem pcPassesTheInstruction : Obligations.PcPassesTheInstruction := by
  intro s hrun himp
  have hnot (op : Byte) (hop : fetchInstr s = .unimplemented op) : False := by
    obtain ⟨rfl, hnimp⟩ := fetchInstr_eq_unimplemented hop
    cases hnimp.symm.trans himp
  obtain ⟨t, ht, hpc, hloop⟩ := exec_completes hnot s
  obtain ⟨n, hn, hsize⟩ : ∃ n, (opcodeTable (s.readByte s.cpu.pc)).mode.len = some n ∧ (n = 1 ∨ n = 2) := by
    obtain h1 | h2 := opcodeTable_len himp
    · exact ⟨1, h1, .inl rfl⟩
    · exact ⟨2, h2, .inr rfl⟩
  obtain ⟨hentry, hlength⟩ := fetchInstr_row s
  have hmode : (fetchInstr s).mode.len = some n := by rw [hentry] at hn; exact hn
  refine ⟨t, n, (step_running hrun).trans ht, hn, hsize, ?_, hloop.trans hrun⟩
  rw [hpc, hlength, hmode, Option.getD_some, BitVec.toNat_add, BitVec.toNat_ofNat]
  omega

/-! ### The result of a step -/

/-- A step returns Error(f) only where it leads to Faulted(f). -/
theorem loop_of_stepResult_error {s : State} {f : Fault} (h : stepResult s = some (.error f)) :
    ∃ t, step s = .next t ∧ t.cpu.loop = .faulted f := by
  cases hl : s.cpu.loop with
  | halted => cases (stepResult_halted hl).symm.trans h
  | faulted g => simp only [stepResult, hl] at h; cases h
  | running =>
    obtain ⟨t, ht, he⟩ := step_running_next hl
    obtain hkept | ⟨g, hg⟩ := exec_next_loop_cases he
    · cases (stepResult_completed hl ht (hkept.trans hl)).symm.trans h
    · cases (stepResult_faulting hl ht hg).symm.trans h
      exact ⟨t, ht, hg⟩

/-- Settles O37: an Error is the fault recorded (`loop_of_stepResult_error`), and from a recorded fault nothing goes on. -/
theorem faultedTakesNoStep : Obligations.FaultedTakesNoStep :=
  ⟨fun _ _ => loop_of_stepResult_error, fun _ _ hl =>
    ⟨step_faulted hl, by simp only [stepResult, hl], by simp only [callerHalt, hl]⟩⟩

/-- Settles O43: another P is passed on, or UpdateZN is applied to it as to the state's own (`step_withP_cases`). -/
theorem statusInfluencesNothingElse : Obligations.StatusInfluencesNothingElse := by
  intro s t p h
  obtain ⟨v, hp, hw⟩ | ⟨hp, hw⟩ := step_withP_cases h
  · exact ⟨_, hw p, .inl (by simp [hp])⟩
  · exact ⟨p, hw p, .inr ⟨hp, rfl⟩⟩

/-! ### The invariant -/

/-- Where no fault is recorded, the invariant is the canonical form of memory. -/
theorem State.inv_of_unfaulted {s : State} (h : s.cpu.loop = .running ∨ s.cpu.loop = .halted) :
    s.inv = true ↔ Memory.wf s.mem = true := by
  obtain hl | hl := h <;> simp [State.inv, State.faultRecordOk, hl]

/-- Where the fault of an unimplemented byte at PC is recorded, it is so too. -/
theorem State.inv_of_unimplementedOpcode {s : State}
    (h : s.cpu.loop = .faulted (.unimplementedOpcode (s.readByte s.cpu.pc) s.cpu.pc))
    (himp : implemented (s.readByte s.cpu.pc) = false) : s.inv = true ↔ Memory.wf s.mem = true := by
  simp [State.inv, State.faultRecordOk, h, himp]

/-- Settles O2: no launch records a fault, and the reset memory is canonical. -/
theorem launchSatisfiesInvariant : Obligations.LaunchSatisfiesInvariant :=
  ⟨(State.inv_of_unfaulted (.inl rfl)).mpr State.reset_mem_wf, fun a x y p sp pc m hm =>
    (State.inv_of_unfaulted (.inl (State.launch_loop a x y p sp pc m))).mpr hm⟩

/-- The instruction at PC keeps the invariant: loads leave memory alone, stores keep its canonical form, and a fault is
taken only of the byte at PC. -/
theorem exec_fetchInstr_keeps_inv {s t : State} (hrun : s.cpu.loop = .running) (hm : Memory.wf s.mem = true)
    (h : exec (fetchInstr s) s = .next t) : t.inv = true := by
  obtain ⟨r, v, he⟩ | ⟨r, o, he, -⟩ | ⟨op, hop, he⟩ := exec_cases (fetchInstr s) s
  · cases h.symm.trans (he.trans (loadByte_eq r v _ s))
    refine (State.inv_of_unfaulted (.inl ?_)).mpr hm
    simp [hrun]
  · cases h.symm.trans (he.trans (storeMem_eq r o s))
    refine (State.inv_of_unfaulted (.inl ?_)).mpr ?_
    · exact hrun
    · exact State.writeByte_wf hm (o.addr s) (s.cpu.get r)
  · cases h.symm.trans (he.trans (raiseFault_eq _ s))
    obtain ⟨rfl, himp⟩ := fetchInstr_eq_unimplemented hop
    refine (State.inv_of_unimplementedOpcode ?_ ?_).mpr hm
    · rfl
    · exact himp

/-- Settles O38: Halted's step changes nothing, Running's is the instruction at PC (`exec_fetchInstr_keeps_inv`). -/
theorem stepKeepsInvariant : Obligations.StepKeepsInvariant := by
  intro s t hinv h
  obtain ⟨-, rfl⟩ | ⟨hrun, he⟩ := step_next_cases h
  · exact hinv
  · exact exec_fetchInstr_keeps_inv hrun ((State.inv_of_unfaulted (.inl hrun)).mp hinv) he

/-- Settles O39: the invariant holds along every run (`reaches_keeps`), and every unfaulted state steps. -/
theorem soundStatesAreSafe : Obligations.SoundStatesAreSafe := fun _ hinv _ hreach =>
  ⟨reaches_keeps (P := fun u => u.inv = true) (fun hu hstep => stepKeepsInvariant _ _ hu hstep) hreach hinv,
    step_next_of_steps⟩

end Sys2Proof.Machine

/-! PROOFS. The loop on any bus with any table (44_execution_loop.md section 1, 60_exceptions.md section 2, 20_memory.md
section 1): which faults a step can end with, and which accesses it makes. -/

namespace Sys2Proof.Machine
open Sys2Proof.Claims

/-! ### The two memory primitives (R9, R158) -/

section
variable {S : Type} {bus : Bus S} {a : Word} {v : Byte} {e : BusInfo} {c : Cpu} {s s' : S}

theorem memRead_error (h : bus.read s a false = (.error e, s')) : memRead bus a c s = (.error (.busError e), s') := by
  simp only [memRead, h]

theorem memWrite_ok (h : bus.write s a v = (.ok (), s')) : memWrite bus a v c s = (.ok ((), c), s') := by
  simp only [memWrite, h]

theorem memWrite_error (h : bus.write s a v = (.error e, s')) :
    memWrite bus a v c s = (.error (.busError e), s') := by
  simp only [memWrite, h]

end

/-- Settles O45, by what each primitive does with the bus's answer. -/
theorem memoryPrimitivesPassErrorsOn : Obligations.MemoryPrimitivesPassErrorsOn := fun _ _ _ _ _ _ _ =>
  ⟨fun _ => memRead_ok, fun _ => memRead_error, memWrite_ok, fun _ => memWrite_error⟩

/-! ### The step around its body (R150, R160, R161) -/

/-- What a step can answer: Halted's own step, the commit of a completed body, or the record of its fault. -/
theorem stepOn_cases {S : Type} {params : Params} {bus : Bus S} {c c' : Cpu} {s s' : S} {r : StepResult}
    (h : stepOn params bus c s = some (c', s', r)) :
    (c.loop = .halted ∧ c' = c ∧ s' = s ∧ r = .halt) ∨
    (c.loop = .running ∧ runningStep params bus c s = (.ok ((), c'), s') ∧ r = .continued params.stepCycles) ∨
    ∃ f, c.loop = .running ∧ runningStep params bus c s = (.error f, s') ∧ c' = { c with loop := .faulted f } ∧
      r = .error f := by
  unfold stepOn at h
  split at h
  next hrun =>
    split at h
    next hbody =>
      cases h
      exact .inr (.inl ⟨hrun, hbody, rfl⟩)
    next hbody =>
      cases h
      exact .inr (.inr ⟨_, hrun, hbody, rfl, rfl⟩)
  next hhalt =>
    cases h
    exact .inl ⟨hhalt, rfl, rfl, rfl⟩
  next => cases h

/-- A step that returns Error(f) is one whose body raised f, and it records f and nothing else. -/
theorem stepOn_error {S : Type} {params : Params} {bus : Bus S} {c c' : Cpu} {s s' : S} {f : Fault}
    (h : stepOn params bus c s = some (c', s', .error f)) :
    runningStep params bus c s = (.error f, s') ∧ c' = { c with loop := .faulted f } := by
  obtain ⟨-, -, -, hr⟩ | ⟨-, -, hr⟩ | ⟨g, -, hbody, hc, hr⟩ := stepOn_cases h <;> cases hr
  exact ⟨hbody, hc⟩

/-- Settles O46, by the fault's commit and its inversion. -/
theorem faultsArePreciseOnEveryBus : Obligations.FaultsArePreciseOnEveryBus := by
  refine fun _ _ _ _ _ _ _ hrun => ⟨stepOn_faulting hrun, fun c' h => ?_⟩
  obtain ⟨-, rfl⟩ := stepOn_error h
  exact ⟨rfl, rfl, rfl, rfl, rfl, rfl, rfl⟩

/-! ### What the opcode leads to (R141 to R144) -/

/-- Whether the mnemonic is one of the three loads. -/
def isLoad : Mnemonic → Bool
  | .lda | .ldx | .ldy => true
  | .sta | .stx | .sty | .unimplemented => false

/-- The eight modes that name an address (R66). -/
def isMemoryMode : Mode → Bool
  | .zeroPage | .zeroPageX | .zeroPageY | .absolute | .absoluteX | .absoluteY | .indirectX | .indirectY => true
  | .accumulator | .implied | .immediate | .relative | .indirect | .unimplemented => false

/-- A legal mode of a load is Immediate, or names an address. -/
theorem legal_load {mn : Mnemonic} {m : Mode} (hload : isLoad mn = true) (h : legal mn m = true) :
    m = .immediate ∨ isMemoryMode m = true := by
  have hmem : m ∈ legalModes mn := of_decide_eq_true h
  cases mn
  case lda => exact (by decide : ∀ m ∈ legalModes .lda, m = .immediate ∨ isMemoryMode m = true) m hmem
  case ldx => exact (by decide : ∀ m ∈ legalModes .ldx, m = .immediate ∨ isMemoryMode m = true) m hmem
  case ldy => exact (by decide : ∀ m ∈ legalModes .ldy, m = .immediate ∨ isMemoryMode m = true) m hmem
  all_goals cases hload

/-- A legal mode of a store names an address. -/
theorem legal_store {mn : Mnemonic} {m : Mode} (hstore : isLoad mn = false) (h : legal mn m = true) :
    isMemoryMode m = true := by
  have hmem : m ∈ legalModes mn := of_decide_eq_true h
  cases mn
  case sta => exact (by decide : ∀ m ∈ legalModes .sta, isMemoryMode m = true) m hmem
  case stx => exact (by decide : ∀ m ∈ legalModes .stx, isMemoryMode m = true) m hmem
  case sty => exact (by decide : ∀ m ∈ legalModes .sty, isMemoryMode m = true) m hmem
  case unimplemented => cases hmem
  all_goals cases hstore

/-- The choice of R144: a load, a store, or no executor. -/
theorem dispatch_cases {S : Type} (wrap : Bool) (bus : Bus S) (site : Site) (m : Mode) :
    (isLoad site.mnemonic = true ∧ ∃ r, dispatch wrap bus site m = executeLoad wrap bus site r m) ∨
    (isLoad site.mnemonic = false ∧ ∃ r, dispatch wrap bus site m = executeStore wrap bus site r m) ∨
    site.mnemonic.hasExecutor = false := by
  unfold dispatch
  cases site.mnemonic with
  | lda | ldx | ldy => exact .inl ⟨rfl, _, rfl⟩
  | sta | stx | sty => exact .inr (.inl ⟨rfl, _, rfl⟩)
  | unimplemented => exact .inr (.inr rfl)

/-- What the opcode byte leads to: a fault, if its table entry fails one of the two checks; otherwise a load or a store of
a mode that is legal for it. -/
theorem executeOpcode_cases {S : Type} (params : Params) (bus : Bus S) (p : Word) (op : Byte) :
    ((∃ f, executeOpcode params bus p op = stagedRaise f) ∧
      ((params.opcodeTable op).mnemonic.hasExecutor = false ∨
        legal (params.opcodeTable op).mnemonic (params.opcodeTable op).mode = false)) ∨
    (isLoad (params.opcodeTable op).mnemonic = true ∧
      ((params.opcodeTable op).mode = .immediate ∨ isMemoryMode (params.opcodeTable op).mode = true) ∧
      ∃ site r, executeOpcode params bus p op =
        executeLoad params.zpPtrWrap bus site r (params.opcodeTable op).mode) ∨
    (isLoad (params.opcodeTable op).mnemonic = false ∧ isMemoryMode (params.opcodeTable op).mode = true ∧
      ∃ site r, executeOpcode params bus p op =
        executeStore params.zpPtrWrap bus site r (params.opcodeTable op).mode) := by
  cases hexec : (params.opcodeTable op).mnemonic.hasExecutor with
  | false => exact .inl ⟨⟨_, executeOpcode_missing_executor hexec⟩, .inl rfl⟩
  | true =>
    cases hlegal : legal (params.opcodeTable op).mnemonic (params.opcodeTable op).mode with
    | false => exact .inl ⟨⟨_, executeOpcode_illegal_mode hexec hlegal⟩, .inr rfl⟩
    | true =>
      let site : Site := { mnemonic := (params.opcodeTable op).mnemonic, opcode := op, pc := p }
      have hdispatch : executeOpcode params bus p op =
          dispatch params.zpPtrWrap bus site (params.opcodeTable op).mode := by
        simp [executeOpcode, hexec, hlegal, site]
      rw [hdispatch]
      obtain ⟨hload, r, he⟩ | ⟨hstore, r, he⟩ | hnone :=
        dispatch_cases params.zpPtrWrap bus site (params.opcodeTable op).mode
      · exact .inr (.inl ⟨hload, legal_load hload hlegal, site, r, he⟩)
      · exact .inr (.inr ⟨hstore, legal_store hstore hlegal, site, r, he⟩)
      · cases hnone.symm.trans hexec

/-! ### Properties that reads keep

A property of staged computations that the parts of the resolver have, and that is kept when one part runs after another,
is a property of the whole resolver. -/

/-- The property holds of every part that resolving an operand is made of, a fault of the resolver's own apart, and of two
parts run one after another. -/
structure KeptByReads {S : Type} (bus : Bus S) (P : (α : Type) → Staged S α → Prop) : Prop where
  pure   : ∀ {α : Type} (v : α), P α (stagedPure v)
  cpu    : P Cpu stagedCpu
  modify : ∀ g, P Unit (stagedModify g)
  read   : ∀ a, P Byte (memRead bus a)
  bind   : ∀ {α β : Type} {m : Staged S α} {k : α → Staged S β}, P α m → (∀ v, P β (k v)) → P β (stagedBind m k)

section
variable {S : Type} {bus : Bus S} {P : (α : Type) → Staged S α → Prop} (hP : KeptByReads bus P)
include hP

theorem KeptByReads.fetchOperandByte : P Byte (fetchOperandByte bus) :=
  hP.bind hP.cpu fun c => hP.bind (hP.read c.pc) fun b => hP.bind (hP.modify _) fun _ => hP.pure b

theorem KeptByReads.fetchAbsolute : P Word (fetchAbsolute bus) :=
  hP.bind hP.fetchOperandByte fun _ => hP.bind hP.fetchOperandByte fun _ => hP.pure _

theorem KeptByReads.readPointer (wrap : Bool) (p : Byte) : P Word (readPointer wrap bus p) :=
  hP.bind (hP.read _) fun _ => hP.bind (hP.read _) fun _ => hP.pure _

/-- Forming a value from the staged registers. -/
theorem KeptByReads.ofCpu {α : Type} (f : Cpu → α) : P α (stagedBind stagedCpu fun c => stagedPure (f c)) :=
  hP.bind hP.cpu fun c => hP.pure (f c)

/-- The resolver's own faults are raised for the modes that name no address alone. -/
theorem KeptByReads.resolveAddress (wrap : Bool) (site : Site) {m : Mode}
    (hm : isMemoryMode m = true ∨ ∀ f, P Word (stagedRaise f)) : P Word (resolveAddress wrap bus site m) := by
  cases m
  case zeroPage => exact hP.bind hP.fetchOperandByte fun _ => hP.pure _
  case zeroPageX | zeroPageY => exact hP.bind hP.fetchOperandByte fun _ => hP.ofCpu _
  case absolute => exact hP.fetchAbsolute
  case absoluteX | absoluteY => exact hP.bind hP.fetchAbsolute fun _ => hP.ofCpu _
  case indirectX => exact hP.bind hP.fetchOperandByte fun _ => hP.bind hP.cpu fun _ => hP.readPointer wrap _
  case indirectY => exact hP.bind hP.fetchOperandByte fun b => hP.bind (hP.readPointer wrap b) fun _ => hP.ofCpu _
  all_goals
    obtain hfalse | hraise := hm
    · cases hfalse
    · exact hraise _

theorem KeptByReads.resolveValue (wrap : Bool) (site : Site) {m : Mode}
    (hm : m = .immediate ∨ isMemoryMode m = true ∨ ∀ f, P Word (stagedRaise f)) :
    P Byte (resolveValue wrap bus site m) := by
  obtain rfl | hm := hm
  · exact hP.fetchOperandByte
  · have hea : P Byte (stagedBind (Machine.resolveAddress wrap bus site m) fun ea => memRead bus ea) :=
      hP.bind (hP.resolveAddress wrap site hm) hP.read
    cases m
    case accumulator => exact hP.ofCpu Cpu.a
    case immediate => exact hP.fetchOperandByte
    all_goals exact hea

theorem KeptByReads.executeLoad (wrap : Bool) (site : Site) (r : Reg) {m : Mode}
    (hm : m = .immediate ∨ isMemoryMode m = true ∨ ∀ f, P Word (stagedRaise f)) :
    P Unit (executeLoad wrap bus site r m) :=
  hP.bind (hP.resolveValue wrap site hm) fun _ => hP.modify _

end

/-! ### After both checks only the bus can fault (R159) -/

/-- Every fault of the computation is a bus error. -/
def FaultsOnBusOnly {S : Type} (α : Type) (m : Staged S α) : Prop :=
  ∀ ⦃c : Cpu⦄ ⦃s s' : S⦄ ⦃f : Fault⦄, m c s = (.error f, s') → ∃ e, f = .busError e

theorem stagedBind_faultsOnBusOnly {S α β : Type} {m : Staged S α} {k : α → Staged S β} (hm : FaultsOnBusOnly α m)
    (hk : ∀ v, FaultsOnBusOnly β (k v)) : FaultsOnBusOnly β (stagedBind m k) := by
  intro c s s' f h
  obtain hfirst | ⟨v, c₁, s₁, -, hsecond⟩ := stagedBind_eq_error h
  · exact hm hfirst
  · exact hk v hsecond

theorem memRead_faultsOnBusOnly {S : Type} (bus : Bus S) (a : Word) : FaultsOnBusOnly Byte (memRead bus a) := by
  intro c s s' f h
  unfold memRead at h
  split at h <;> cases h
  exact ⟨_, rfl⟩

theorem memWrite_faultsOnBusOnly {S : Type} (bus : Bus S) (a : Word) (v : Byte) :
    FaultsOnBusOnly Unit (memWrite bus a v) := by
  intro c s s' f h
  unfold memWrite at h
  split at h <;> cases h
  exact ⟨_, rfl⟩

theorem faultsOnBusOnly_kept {S : Type} (bus : Bus S) : KeptByReads bus FaultsOnBusOnly where
  pure _ _ _ _ _ h := by cases h
  cpu _ _ _ _ h := by cases h
  modify _ _ _ _ _ h := by cases h
  read := memRead_faultsOnBusOnly bus
  bind := stagedBind_faultsOnBusOnly

theorem executeStore_faultsOnBusOnly {S : Type} (wrap : Bool) (bus : Bus S) (site : Site) (r : Reg) {m : Mode}
    (hm : isMemoryMode m = true) : FaultsOnBusOnly Unit (executeStore wrap bus site r m) :=
  stagedBind_faultsOnBusOnly ((faultsOnBusOnly_kept bus).resolveAddress wrap site (.inl hm)) fun ea =>
    stagedBind_faultsOnBusOnly (faultsOnBusOnly_kept bus).cpu fun c => memWrite_faultsOnBusOnly bus ea (c.get r)

theorem executeOpcode_faultsOnBusOnly {S : Type} {params : Params} {op : Byte}
    (hexec : (params.opcodeTable op).mnemonic.hasExecutor = true)
    (hlegal : legal (params.opcodeTable op).mnemonic (params.opcodeTable op).mode = true) (bus : Bus S) (p : Word) :
    FaultsOnBusOnly Unit (executeOpcode params bus p op) := by
  obtain ⟨-, hfail⟩ | ⟨-, hm, site, r, he⟩ | ⟨-, hm, site, r, he⟩ := executeOpcode_cases params bus p op
  · simp [hexec, hlegal] at hfail
  · exact he ▸ (faultsOnBusOnly_kept bus).executeLoad _ site r (hm.imp_right .inl)
  · exact he ▸ executeStore_faultsOnBusOnly _ bus site r hm

/-- Settles O49: the opcode fetch is the body's first part, and an opcode that passes both checks faults on the bus only. -/
theorem busErrorsComeFirstAndLast : Obligations.BusErrorsComeFirstAndLast := by
  intro S params bus c s hrun
  refine ⟨fun e s' h => stepOn_faulting hrun (stagedBind_error (memRead_error h)), fun op c' s' f hop hexec hlegal h => ?_⟩
  have hfetch : bus.read s c.pc false = (.ok op, (bus.read s c.pc false).2) := Prod.ext hop rfl
  obtain ⟨hbody, -⟩ := stepOn_error h
  rw [runningStep_fetched hfetch] at hbody
  exact executeOpcode_faultsOnBusOnly hexec hlegal bus c.pc hbody

/-! ### The accesses of a step (20_memory.md section 5, 42_load.md section 1, 43_store.md section 1) -/

/-- Whether it completes or faults, the computation appends ordinary reads to the record of accesses. -/
def OnlyReads {S : Type} (α : Type) (m : Staged (S × List Access) α) : Prop :=
  ∀ c st, ∃ addrs, (m c st).2.2 = st.2 ++ reads addrs

/-- Whether it completes or faults, the computation appends ordinary reads, and then at most one write. -/
def ReadsThenWrite {S : Type} (α : Type) (m : Staged (S × List Access) α) : Prop :=
  ∀ c st, ∃ addrs writes, (m c st).2.2 = st.2 ++ reads addrs ++ writes ∧
    (writes = [] ∨ ∃ a v, writes = [Access.write a v])

theorem reads_append (as bs : List Word) : reads (as ++ bs) = reads as ++ reads bs := List.map_append

section
variable {S α β : Type}

theorem stagedBind_onlyReads {m : Staged (S × List Access) α} {k : α → Staged (S × List Access) β}
    (hm : OnlyReads α m) (hk : ∀ v, OnlyReads β (k v)) : OnlyReads β (stagedBind m k) := by
  intro c st
  obtain ⟨as, has⟩ := hm c st
  unfold stagedBind
  split
  next v c' st' h =>
    obtain ⟨bs, hbs⟩ := hk v c' st'
    rw [h] at has
    exact ⟨as ++ bs, by rw [hbs, has, reads_append, List.append_assoc]⟩
  next f st' h =>
    rw [h] at has
    exact ⟨as, has⟩

theorem OnlyReads.readsThenWrite {m : Staged (S × List Access) α} (hm : OnlyReads α m) : ReadsThenWrite α m := by
  intro c st
  obtain ⟨as, has⟩ := hm c st
  exact ⟨as, [], by rw [has, List.append_nil], .inl rfl⟩

theorem stagedBind_readsThenWrite {m : Staged (S × List Access) α} {k : α → Staged (S × List Access) β}
    (hm : OnlyReads α m) (hk : ∀ v, ReadsThenWrite β (k v)) : ReadsThenWrite β (stagedBind m k) := by
  intro c st
  obtain ⟨as, has⟩ := hm c st
  unfold stagedBind
  split
  next v c' st' h =>
    obtain ⟨bs, writes, hbs, hwrites⟩ := hk v c' st'
    rw [h] at has
    exact ⟨as ++ bs, writes, by rw [hbs, has, reads_append, List.append_assoc st.2], hwrites⟩
  next f st' h =>
    rw [h] at has
    exact ⟨as, [], by rw [has, List.append_nil], .inl rfl⟩

theorem stagedRaise_onlyReads (f : Fault) : OnlyReads α (stagedRaise f : Staged (S × List Access) α) :=
  fun _ _ => ⟨[], (List.append_nil _).symm⟩

theorem memRead_tracedBus_onlyReads (bus : Bus S) (a : Word) : OnlyReads Byte (memRead (tracedBus bus) a) := by
  intro c st
  refine ⟨[a], ?_⟩
  unfold memRead
  split
  all_goals
    next h => exact (congrArg (fun x => x.2.2) h).symm

theorem memWrite_tracedBus_readsThenWrite (bus : Bus S) (a : Word) (v : Byte) :
    ReadsThenWrite Unit (memWrite (tracedBus bus) a v) := by
  intro c st
  refine ⟨[], [.write a v], ?_, .inr ⟨a, v, rfl⟩⟩
  rw [reads, List.map_nil, List.append_nil]
  unfold memWrite
  split
  all_goals
    next h => exact (congrArg (fun x => x.2.2) h).symm

theorem onlyReads_kept (bus : Bus S) : KeptByReads (tracedBus bus) OnlyReads where
  pure _ _ _ := ⟨[], (List.append_nil _).symm⟩
  cpu _ _ := ⟨[], (List.append_nil _).symm⟩
  modify _ _ _ := ⟨[], (List.append_nil _).symm⟩
  read := memRead_tracedBus_onlyReads bus
  bind := stagedBind_onlyReads

theorem executeStore_readsThenWrite (wrap : Bool) (bus : Bus S) (site : Site) (r : Reg) (m : Mode) :
    ReadsThenWrite Unit (executeStore wrap (tracedBus bus) site r m) :=
  stagedBind_readsThenWrite ((onlyReads_kept bus).resolveAddress wrap site (.inr stagedRaise_onlyReads)) fun ea =>
    stagedBind_readsThenWrite (onlyReads_kept bus).cpu fun c => memWrite_tracedBus_readsThenWrite bus ea (c.get r)

/-- A load's opcode only reads, whether it completes or faults. -/
theorem executeOpcode_onlyReads {params : Params} {op : Byte} (hload : isLoad (params.opcodeTable op).mnemonic = true)
    (bus : Bus S) (p : Word) : OnlyReads Unit (executeOpcode params (tracedBus bus) p op) := by
  obtain ⟨⟨f, he⟩, -⟩ | ⟨-, -, site, r, he⟩ | ⟨hstore, -⟩ := executeOpcode_cases params (tracedBus bus) p op
  · exact he ▸ stagedRaise_onlyReads f
  · exact he ▸ (onlyReads_kept bus).executeLoad _ site r (.inr (.inr stagedRaise_onlyReads))
  · cases hstore.symm.trans hload

theorem executeOpcode_readsThenWrite (params : Params) (bus : Bus S) (p : Word) (op : Byte) :
    ReadsThenWrite Unit (executeOpcode params (tracedBus bus) p op) := by
  obtain ⟨⟨f, he⟩, -⟩ | ⟨hload, -⟩ | ⟨-, -, site, r, he⟩ := executeOpcode_cases params (tracedBus bus) p op
  · exact he ▸ (stagedRaise_onlyReads f).readsThenWrite
  · exact (executeOpcode_onlyReads hload bus p).readsThenWrite
  · exact he ▸ executeStore_readsThenWrite _ bus site r _

theorem runningStep_readsThenWrite (params : Params) (bus : Bus S) :
    ReadsThenWrite Unit (runningStep params (tracedBus bus)) := fun c st =>
  stagedBind_readsThenWrite (memRead_tracedBus_onlyReads bus c.pc)
    (fun op => stagedBind_readsThenWrite ((onlyReads_kept bus).modify _) fun _ =>
      executeOpcode_readsThenWrite params bus c.pc op) c st

/-- The bus after a step is the bus after its body, or in Halted the bus before it. -/
theorem stepOn_bus {params : Params} {bus : Bus S} {c c' : Cpu} {s s' : S} {r : StepResult}
    (h : stepOn params bus c s = some (c', s', r)) :
    (c.loop = .halted ∧ s' = s) ∨ (c.loop = .running ∧ s' = (runningStep params bus c s).2) := by
  obtain ⟨hhalt, -, hs, -⟩ | ⟨hrun, hbody, -⟩ | ⟨f, hrun, hbody, -, -⟩ := stepOn_cases h
  · exact .inl ⟨hhalt, hs⟩
  all_goals exact .inr ⟨hrun, by rw [hbody]⟩

end

/-- Settles O50: Halted makes no access, and a Running step's body reads and then writes at most once. -/
theorem stepReadsThenWritesAtMostOnce : Obligations.StepReadsThenWritesAtMostOnce := by
  intro S params bus c c' s s' log log' r h
  obtain ⟨-, hst⟩ | ⟨-, hst⟩ := stepOn_bus h
  · cases hst
    exact ⟨[], [], by simp [reads], .inl rfl⟩
  · obtain ⟨addrs, writes, hlog, hwrites⟩ := runningStep_readsThenWrite params bus c (s, log)
    rw [← hst] at hlog
    exact ⟨addrs, writes, hlog, hwrites⟩

theorem isRead_of_mem_reads {as : List Word} : ∀ x ∈ reads as, x.isRead = true := by
  simp [reads, Access.isRead]

/-- Settles O20: a load replaces the processor state alone; on any bus its opcode fetch is a read and so is all it does
after it. -/
theorem loadsOnlyRead : Obligations.LoadsOnlyRead := by
  refine ⟨fun i r s hload => ?_, fun S params bus c c' s s' log log' op r hop hmn h => ?_⟩
  · obtain ⟨b, hi⟩ | ⟨o, hi⟩ := exec_load_form hload
    · exact ⟨_, (hi s).trans (loadByte_eq r b 2 s), rfl⟩
    · exact ⟨_, (hi s).trans (loadByte_eq r (o.value s) o.bytes s), rfl⟩
  · have hload : isLoad (params.opcodeTable op).mnemonic = true := by
      obtain h | h | h := hmn <;> rw [h] <;> rfl
    obtain ⟨-, hst⟩ | ⟨-, hst⟩ := stepOn_bus h
    · cases hst
      exact ⟨[], by simp, by simp⟩
    · have hfetch : (tracedBus bus).read (s, log) c.pc false =
          (.ok op, (bus.read s c.pc false).2, log ++ [.read c.pc false]) := Prod.ext hop rfl
      obtain ⟨addrs, hlog⟩ := executeOpcode_onlyReads hload bus c.pc (c.advance 1)
        ((bus.read s c.pc false).2, log ++ [.read c.pc false])
      rw [← runningStep_fetched hfetch, ← hst] at hlog
      exact ⟨reads (c.pc :: addrs), hlog.trans (List.append_assoc _ _ _), isRead_of_mem_reads⟩

end Sys2Proof.Machine

/-! PROOFS. The loop of the spec at the hardware's parameters (44_execution_loop.md section 1, 40_addressing.md section
5): on plain storage, recorded or not, it runs the fetched instruction and makes the accesses of the table of R86. -/

namespace Sys2Proof.Machine
open Sys2Proof.Claims

/-! ### What an action resolves and accesses -/

/-- The mode of a memory operand (R66). -/
def MemOperand.mode : MemOperand → Mode
  | .zeroPage _    => .zeroPage
  | .zeroPageX _   => .zeroPageX
  | .zeroPageY _   => .zeroPageY
  | .absolute _ _  => .absolute
  | .absoluteX _ _ => .absoluteX
  | .absoluteY _ _ => .absoluteY
  | .indirectX _   => .indirectX
  | .indirectY _   => .indirectY

/-- The operand bytes of a memory operand, in the order they lie in memory (R54). -/
def MemOperand.operandBytes : MemOperand → List Byte
  | .zeroPage b | .zeroPageX b | .zeroPageY b | .indirectX b | .indirectY b => [b]
  | .absolute lo hi | .absoluteX lo hi | .absoluteY lo hi => [lo, hi]

/-- What resolving the address reads after the opcode byte: the operand bytes, then a pointer's two (R86). -/
def MemOperand.resolverReads (o : MemOperand) (s : State) : List Word :=
  match o with
  | .zeroPage _ | .zeroPageX _ | .zeroPageY _ => [s.cpu.pc + 1#16]
  | .absolute _ _ | .absoluteX _ _ | .absoluteY _ _ => [s.cpu.pc + 1#16, s.cpu.pc + 2#16]
  | .indirectX b => [s.cpu.pc + 1#16, zext16 (b + s.cpu.x), pointerHighAddr Config.zpPtrWrap (b + s.cpu.x)]
  | .indirectY b => [s.cpu.pc + 1#16, zext16 b, pointerHighAddr Config.zpPtrWrap b]

/-- The mode of an action's row. -/
def Action.mode : Action → Mode
  | .loadImm _ _ => .immediate
  | .loadMem _ o | .storeMem _ o => o.mode
  | .unimplemented _ => .unimplemented

/-- The operand bytes of an action. -/
def Action.operandBytes : Action → List Byte
  | .loadImm _ b => [b]
  | .loadMem _ o | .storeMem _ o => o.operandBytes
  | .unimplemented _ => []

/-- What an action accesses after its opcode byte (R86, R97, R120). -/
def Action.accesses (s : State) : Action → List Access
  | .loadImm _ _ => reads [s.cpu.pc + 1#16]
  | .loadMem _ o => reads (o.resolverReads s) ++ reads [o.addr s]
  | .storeMem r o => reads (o.resolverReads s) ++ [.write (o.addr s) (s.cpu.get r)]
  | .unimplemented _ => []

/-- The executor of an action in the spec's loop; an opcode without one is a fault before dispatch (R142, R144). -/
def Action.execute {S : Type} (wrap : Bool) (bus : Bus S) (site : Site) : Action → Staged S Unit
  | .loadImm r _ => executeLoad wrap bus site r .immediate
  | .loadMem r o => executeLoad wrap bus site r o.mode
  | .storeMem r o => executeStore wrap bus site r o.mode
  | .unimplemented _ => stagedRaise (.unimplementedOpcode site.opcode site.pc)

theorem encode_eq_action (i : Instr) : ∃ op, encode i = op :: (actionOf i).operandBytes := by
  cases i <;> exact ⟨_, rfl⟩

theorem accessesOf_eq_action (i : Instr) (s : State) :
    accessesOf i s = .read s.cpu.pc false :: (actionOf i).accesses s := by
  cases i <;> rfl

/-- The instruction's row passes both checks, or it is unimplemented, and dispatch leads to its action. -/
theorem executeOpcode_eq_action {S : Type} {params : Params} {op : Byte} {i : Instr}
    (h : params.opcodeTable op = ⟨i.mnemonic, i.mode⟩) (bus : Bus S) (p : Word) :
    executeOpcode params bus p op =
      (actionOf i).execute params.zpPtrWrap bus { mnemonic := i.mnemonic, opcode := op, pc := p } := by
  rw [executeOpcode, h]
  cases i <;> rfl

/-- The operand bytes of the fetched instruction stand after its opcode byte. -/
theorem operandBytes_fetchInstr (s : State) : ∃ rest,
    [s.readByte (s.cpu.pc + 1#16), s.readByte (s.cpu.pc + 2#16)] = (actionOf (fetchInstr s)).operandBytes ++ rest := by
  obtain ⟨rest, hbytes, -⟩ := bytesAtPc_eq_encode s
  obtain ⟨op, henc⟩ := encode_eq_action (fetchInstr s)
  rw [henc] at hbytes
  exact ⟨rest, (List.cons.inj hbytes).2⟩

/-- What a fault record of the fetched instruction names. -/
def fetchSite (s : State) : Site :=
  { mnemonic := (fetchInstr s).mnemonic, opcode := s.readByte s.cpu.pc, pc := s.cpu.pc }

/-- A completed body is committed, with the placeholder count. -/
theorem stepOn_completed {S : Type} {params : Params} {bus : Bus S} {c c' : Cpu} {s s' : S} (hrun : c.loop = .running)
    (h : runningStep params bus c s = (.ok ((), c'), s')) :
    stepOn params bus c s = some (c', s', .continued params.stepCycles) := by
  simp only [stepOn, hrun, h]

/-! ### A bus that is plain storage -/

/-- The memory after an access. -/
def Access.apply (m : Memory) : Access → Memory
  | .read _ _ => m
  | .write a v => Memory.write m a.toNat v

/-- The memory after accesses in order. -/
def applyAll (m : Memory) (accesses : List Access) : Memory := accesses.foldl Access.apply m

/-- The bus holds a memory, answers each access as the reference bus does, and its state after accesses is a function of
them. -/
structure PlainStorage {S : Type} (bus : Bus S) (mem : S → Memory) (after : S → List Access → S) : Prop where
  read         : ∀ st a, bus.read st a false = (.ok (Memory.read (mem st) a.toNat), after st [.read a false])
  write        : ∀ st a v, bus.write st a v = (.ok (), after st [.write a v])
  after_append : ∀ st l l', after (after st l) l' = after st (l ++ l')
  mem_after    : ∀ st l, mem (after st l) = applyAll (mem st) l

theorem referenceBus_plainStorage : PlainStorage referenceBus id applyAll where
  read _ _ := rfl
  write _ _ _ := rfl
  after_append _ _ _ := List.foldl_append.symm
  mem_after _ _ := rfl

theorem tracedBus_plainStorage :
    PlainStorage (tracedBus referenceBus) Prod.fst fun st l => (applyAll st.1 l, st.2 ++ l) where
  read _ _ := rfl
  write _ _ _ := rfl
  after_append _ _ _ := Prod.ext List.foldl_append.symm (List.append_assoc _ _ _)
  mem_after _ _ := rfl

theorem applyAll_reads (m : Memory) (as : List Word) : applyAll m (reads as) = m := by
  induction as with
  | nil => rfl
  | cons a as ih => exact ih

/-! ### The loop's parts on plain storage -/

section
variable {S : Type} {bus : Bus S} {mem : S → Memory} {after : S → List Access → S} (hb : PlainStorage bus mem after)
include hb

theorem PlainStorage.mem_after_reads (st : S) (as : List Word) : mem (after st (reads as)) = mem st :=
  (hb.mem_after st _).trans (applyAll_reads (mem st) as)

theorem PlainStorage.memRead (a : Word) (c : Cpu) (st : S) :
    memRead bus a c st = (.ok (Memory.read (mem st) a.toNat, c), after st (reads [a])) :=
  memRead_ok (hb.read st a)

theorem PlainStorage.memWrite (a : Word) (v : Byte) (c : Cpu) (st : S) :
    memWrite bus a v c st = (.ok ((), c), after st [.write a v]) :=
  memWrite_ok (hb.write st a v)

theorem PlainStorage.fetchOperandByte (c : Cpu) (st : S) :
    fetchOperandByte bus c st = (.ok (Memory.read (mem st) c.pc.toNat, c.advance 1), after st (reads [c.pc])) := by
  have hread := hb.memRead c.pc c st
  rw [Machine.fetchOperandByte, stagedBind_ok (stagedCpu_apply c st), stagedBind_ok hread]
  rfl

theorem PlainStorage.fetchAbsolute (c : Cpu) (st : S) :
    fetchAbsolute bus c st =
      (.ok (hilo (Memory.read (mem st) c.pc.toNat) (Memory.read (mem st) (c.pc + 1#16).toNat), c.advance 2),
        after st (reads [c.pc, c.pc + 1#16])) := by
  have hhi := hb.fetchOperandByte (c.advance 1) (after st (reads [c.pc]))
  rw [hb.mem_after_reads, hb.after_append, Cpu.advance_advance] at hhi
  rw [Machine.fetchAbsolute, stagedBind_ok (hb.fetchOperandByte c st), stagedBind_ok hhi]
  rfl

theorem PlainStorage.readPointer (wrap : Bool) (p : Byte) (c : Cpu) (st : S) :
    readPointer wrap bus p c st =
      (.ok (hilo (Memory.read (mem st) (zext16 p).toNat) (Memory.read (mem st) (pointerHighAddr wrap p).toNat), c),
        after st (reads [zext16 p, pointerHighAddr wrap p])) := by
  have hhi := hb.memRead (pointerHighAddr wrap p) c (after st (reads [zext16 p]))
  rw [hb.mem_after_reads, hb.after_append] at hhi
  rw [Machine.readPointer, stagedBind_ok (hb.memRead (zext16 p) c st), stagedBind_ok hhi]
  rfl

variable {s : State} {st : S} (hmem : mem st = s.mem)
include hmem

/-- With PC one past the opcode byte, an operand byte is the one after the opcode byte. -/
theorem PlainStorage.fetchOperandByte_afterOpcode :
    Machine.fetchOperandByte bus (s.cpu.advance 1) st =
      (.ok (s.readByte (s.cpu.pc + 1#16), s.cpu.advance 2), after st (reads [s.cpu.pc + 1#16])) := by
  rw [hb.fetchOperandByte, hmem, Cpu.advance_advance]
  rfl

/-- With PC one past the opcode byte, an absolute address is the two bytes after the opcode byte. -/
theorem PlainStorage.fetchAbsolute_afterOpcode :
    Machine.fetchAbsolute bus (s.cpu.advance 1) st =
      (.ok (hilo (s.readByte (s.cpu.pc + 1#16)) (s.readByte (s.cpu.pc + 2#16)), s.cpu.advance 3),
        after st (reads [s.cpu.pc + 1#16, s.cpu.pc + 2#16])) := by
  have hnext : (s.cpu.advance 1).pc + 1#16 = s.cpu.pc + 2#16 := BitVec.add_assoc s.cpu.pc 1#16 1#16
  rw [hb.fetchAbsolute, hmem, Cpu.advance_advance, hnext]
  rfl

/-- After some reads, a pointer is the model's. -/
theorem PlainStorage.readPointer_afterReads (wrap : Bool) (p : Byte) (c : Cpu) (as : List Word) :
    Machine.readPointer wrap bus p c (after st (reads as)) =
      (.ok (readZpPointer wrap s p, c), after st (reads (as ++ [zext16 p, pointerHighAddr wrap p]))) := by
  rw [hb.readPointer, hb.mem_after_reads, hmem, hb.after_append, ← reads_append]
  rfl

/-- Resolving a memory operand whose bytes stand after the opcode byte gives its address, passes them, and makes the
reads of the table. -/
theorem PlainStorage.resolveAddress (site : Site) {o : MemOperand} {rest : List Byte}
    (hbytes : [s.readByte (s.cpu.pc + 1#16), s.readByte (s.cpu.pc + 2#16)] = o.operandBytes ++ rest) :
    resolveAddress Config.zpPtrWrap bus site o.mode (s.cpu.advance 1) st =
      (.ok (o.addr s, s.cpu.advance o.bytes), after st (reads (o.resolverReads s))) := by
  have hbyte := hb.fetchOperandByte_afterOpcode hmem
  have hword := hb.fetchAbsolute_afterOpcode hmem
  have hpointer := hb.readPointer_afterReads hmem
  cases o
  case zeroPage | zeroPageX | zeroPageY =>
    obtain ⟨rfl, -⟩ := List.cons.inj hbytes
    exact stagedBind_ok hbyte
  case absolute =>
    obtain ⟨rfl, htail⟩ := List.cons.inj hbytes
    obtain ⟨rfl, -⟩ := List.cons.inj htail
    exact hword
  case absoluteX | absoluteY =>
    obtain ⟨rfl, htail⟩ := List.cons.inj hbytes
    obtain ⟨rfl, -⟩ := List.cons.inj htail
    exact stagedBind_ok hword
  case indirectX =>
    obtain ⟨rfl, -⟩ := List.cons.inj hbytes
    exact (stagedBind_ok hbyte).trans (hpointer _ _ _ _)
  case indirectY =>
    obtain ⟨rfl, -⟩ := List.cons.inj hbytes
    exact (stagedBind_ok hbyte).trans (stagedBind_ok (hpointer _ _ _ _))

/-- A load of a memory operand: the model's load of its value, after the reads of the resolver and one at the address. -/
theorem PlainStorage.executeLoad (site : Site) (r : Reg) {o : MemOperand} {rest : List Byte}
    (hbytes : [s.readByte (s.cpu.pc + 1#16), s.readByte (s.cpu.pc + 2#16)] = o.operandBytes ++ rest) :
    executeLoad Config.zpPtrWrap bus site r o.mode (s.cpu.advance 1) st =
      (.ok ((), (s.cpu.load r (o.value s)).advance o.bytes),
        after st (reads (o.resolverReads s) ++ reads [o.addr s])) := by
  have hvalue : resolveValue Config.zpPtrWrap bus site o.mode (s.cpu.advance 1) st =
      (.ok (o.value s, s.cpu.advance o.bytes), after st (reads (o.resolverReads s) ++ reads [o.addr s])) := by
    have hea := hb.resolveAddress hmem site hbytes
    have hread := hb.memRead (o.addr s) (s.cpu.advance o.bytes) (after st (reads (o.resolverReads s)))
    rw [hb.mem_after_reads, hmem, hb.after_append] at hread
    cases o <;> exact (stagedBind_ok hea).trans hread
  rw [Machine.executeLoad, stagedBind_ok hvalue]
  cases r <;> rfl

/-- A load of an immediate byte: the model's load of it, after its read. -/
theorem PlainStorage.executeLoad_immediate (site : Site) (r : Reg) {b : Byte} {rest : List Byte}
    (hbytes : [s.readByte (s.cpu.pc + 1#16), s.readByte (s.cpu.pc + 2#16)] = [b] ++ rest) :
    Machine.executeLoad Config.zpPtrWrap bus site r .immediate (s.cpu.advance 1) st =
      (.ok ((), (s.cpu.load r b).advance 2), after st (reads [s.cpu.pc + 1#16])) := by
  obtain ⟨rfl, -⟩ := List.cons.inj hbytes
  rw [Machine.executeLoad, resolveValue, stagedBind_ok (hb.fetchOperandByte_afterOpcode hmem)]
  cases r <;> rfl

/-- A store: the register's byte written at the operand's address, after the reads of the resolver. -/
theorem PlainStorage.executeStore (site : Site) (r : Reg) {o : MemOperand} {rest : List Byte}
    (hbytes : [s.readByte (s.cpu.pc + 1#16), s.readByte (s.cpu.pc + 2#16)] = o.operandBytes ++ rest) :
    executeStore Config.zpPtrWrap bus site r o.mode (s.cpu.advance 1) st =
      (.ok ((), s.cpu.advance o.bytes),
        after st (reads (o.resolverReads s) ++ [.write (o.addr s) (s.cpu.get r)])) := by
  rw [Machine.executeStore, stagedBind_ok (hb.resolveAddress hmem site hbytes), stagedBind_ok (stagedCpu_apply _ _),
    hb.memWrite, hb.after_append, Cpu.advance_get]

/-! ### The step on plain storage -/

/-- An action with an executor: the loop's computation completes with the model's next state and the table's accesses. -/
theorem PlainStorage.execute (site : Site) {i : Instr} {rest : List Byte} (hi : ∀ op, i ≠ .unimplemented op)
    (hbytes : [s.readByte (s.cpu.pc + 1#16), s.readByte (s.cpu.pc + 2#16)] = (actionOf i).operandBytes ++ rest) :
    ∃ t, exec i s = .next t ∧
      (actionOf i).execute Config.zpPtrWrap bus site (s.cpu.advance 1) st =
        (.ok ((), t.cpu), after st ((actionOf i).accesses s)) ∧
      t.cpu.loop = s.cpu.loop ∧ t.mem = applyAll s.mem ((actionOf i).accesses s) := by
  rw [exec_eq_action]
  cases haction : actionOf i with
  | loadImm r b =>
    rw [haction] at hbytes
    exact ⟨_, loadByte_eq r b 2 s, hb.executeLoad_immediate hmem site r hbytes, by simp, rfl⟩
  | loadMem r o =>
    rw [haction] at hbytes
    refine ⟨_, loadByte_eq r (o.value s) o.bytes s, hb.executeLoad hmem site r hbytes, by simp, ?_⟩
    rw [Action.accesses, ← reads_append, applyAll_reads]
  | storeMem r o =>
    rw [haction] at hbytes
    refine ⟨_, storeMem_eq r o s, hb.executeStore hmem site r hbytes, rfl, ?_⟩
    rw [Action.accesses, applyAll, List.foldl_append]
    exact congrArg (fun m => Memory.write m (o.addr s).toNat (s.cpu.get r)) (applyAll_reads s.mem (o.resolverReads s)).symm
  | unimplemented op => exact absurd (actionOf_eq_unimplemented haction) (hi op)

/-- The opcode fetch reads the byte at PC, and the fetched instruction's action is what it leads to. -/
theorem PlainStorage.runningStep :
    Machine.runningStep hardware bus s.cpu st =
      (actionOf (fetchInstr s)).execute Config.zpPtrWrap bus (fetchSite s) (s.cpu.advance 1)
        (after st (reads [s.cpu.pc])) := by
  have hfetch : bus.read st s.cpu.pc false = (.ok (s.readByte s.cpu.pc), after st (reads [s.cpu.pc])) :=
    (hb.read st s.cpu.pc).trans (by rw [hmem]; rfl)
  obtain ⟨hentry, -⟩ := fetchInstr_row s
  rw [runningStep_fetched hfetch, executeOpcode_eq_action hentry bus s.cpu.pc]
  rfl

/-- On plain storage the spec's loop makes the step of the model, with its result, through the accesses of the table. -/
theorem PlainStorage.stepOn (hrun : s.cpu.loop = .running) :
    ∃ t r, step s = .next t ∧ stepResult s = some r ∧
      Machine.stepOn hardware bus s.cpu st = some (t.cpu, after st (accessesOf (fetchInstr s) s), r) ∧
      t.mem = applyAll s.mem (accessesOf (fetchInstr s) s) := by
  have hbody := hb.runningStep hmem
  by_cases hun : ∃ op, fetchInstr s = .unimplemented op
  · obtain ⟨op, hop⟩ := hun
    obtain ⟨rfl, himp⟩ := fetchInstr_eq_unimplemented hop
    obtain ⟨t, hstep, hresult, rfl⟩ := everyOtherByteIsUnimplemented s hrun himp
    rw [hop] at hbody ⊢
    exact ⟨_, _, hstep, hresult, stepOn_faulting hrun hbody, (applyAll_reads s.mem [s.cpu.pc]).symm⟩
  · obtain ⟨rest, hbytes⟩ := operandBytes_fetchInstr s
    have hmem' : mem (after st (reads [s.cpu.pc])) = s.mem := (hb.mem_after_reads st _).trans hmem
    obtain ⟨t, hexec, hexecute, hloop, hmemory⟩ :=
      hb.execute hmem' (fetchSite s) (fun op hop => hun ⟨op, hop⟩) hbytes
    rw [hexecute, hb.after_append] at hbody
    have hstep := (step_running hrun).trans hexec
    rw [accessesOf_eq_action]
    exact ⟨t, _, hstep, stepResult_completed hrun hstep (hloop.trans hrun), stepOn_completed hrun hbody, hmemory⟩

end

/-! ### The statements -/

/-- Settles O51: the plain storage of the reference bus with its record, which begins empty. -/
theorem accessesAreThoseOfTheTable : Obligations.AccessesAreThoseOfTheTable := by
  intro s hrun
  obtain ⟨t, r, -, -, hstepOn, -⟩ := tracedBus_plainStorage.stepOn (s := s) (st := (s.mem, [])) rfl hrun
  exact ⟨_, _, r, hstepOn⟩

/-- Settles O44: a Running step is the loop's on the plain storage of the reference bus; the other two states are the
loop's own arms. -/
theorem stepIsTheLoopOfTheSpec : Obligations.StepIsTheLoopOfTheSpec := by
  intro s
  cases hl : s.cpu.loop with
  | running =>
    obtain ⟨t, r, hstep, hresult, hstepOn, hmemory⟩ := referenceBus_plainStorage.stepOn (s := s) (st := s.mem) rfl hl
    rw [hstep, hresult, hstepOn, ← hmemory]
  | halted =>
    rw [step_halted hl, stepResult_halted hl, stepOn, hl]
  | faulted f =>
    rw [step_faulted hl, stepOn, hl]

end Sys2Proof.Machine

/-! PROOFS. The caller's loop (44_execution_loop.md section 3): how a bounded run ends. -/

namespace Sys2Proof.Machine

/-! ### One turn of the caller's loop (R152) -/

/-- A run from a state that is not Running is over. -/
theorem run_not_running {s : State} (h : s.cpu.loop ≠ .running) (n : Nat) (stop : Word → Bool) : run n stop s = (s, []) := by
  cases n with
  | zero => rfl
  | succ n =>
    cases hl : s.cpu.loop with
    | running => exact absurd hl h
    | halted | faulted f => simp only [run, hl]

theorem run_stopped {s : State} {stop : Word → Bool} (hrun : s.cpu.loop = .running) (hstop : stop s.cpu.pc = true)
    (n : Nat) : run (n + 1) stop s = (s, []) := by
  simp only [run, hrun, hstop, if_true]

theorem run_step {s t : State} {stop : Word → Bool} {r : StepResult} (hrun : s.cpu.loop = .running)
    (hstop : stop s.cpu.pc = false) (hstep : step s = .next t) (hres : stepResult s = some r) (n : Nat) :
    run (n + 1) stop s = ((run n stop t).1, r :: (run n stop t).2) := by
  simp [run, hrun, hstop, hstep, hres]

/-- A Running state has a step and a result; the result is Error(f) if the step leads to Faulted(f). -/
theorem step_running_result {s : State} (hrun : s.cpu.loop = .running) :
    ∃ t r, step s = .next t ∧ stepResult s = some r ∧ ∀ f, t.cpu.loop = .faulted f → r = .error f := by
  obtain ⟨t, ht, he⟩ := step_running_next hrun
  obtain hkept | ⟨f, hf⟩ := exec_next_loop_cases he
  · have hl := hkept.trans hrun
    exact ⟨t, _, ht, stepResult_completed hrun ht hl, fun f hf => by cases hl.symm.trans hf⟩
  · exact ⟨t, _, ht, stepResult_faulting hrun ht hf, fun g hg => by cases hf.symm.trans hg; rfl⟩

/-! ### The run as a whole (R153) -/

/-- What a run of at most `n` steps from `s` leaves: its state, its results, and why it is over. -/
structure RunOver (n : Nat) (stop : Word → Bool) (s t : State) (rs : List StepResult) : Prop where
  bounded : rs.length ≤ n
  stopped : t.cpu.loop = .running → rs.length < n → stop t.cpu.pc = true
  faulted : ∀ f, s.cpu.loop = .running → t.cpu.loop = .faulted f → rs.getLast? = some (.error f)

/-- A run that takes no step is over, unless its state still has steps to take. -/
theorem RunOver.nil {n : Nat} {stop : Word → Bool} {s : State}
    (h : s.cpu.loop = .running → 0 < n → stop s.cpu.pc = true) : RunOver n stop s s [] where
  bounded := Nat.zero_le n
  stopped := h
  faulted f hrun hf := by cases hrun.symm.trans hf

/-- One more step in front. After a step to Faulted(f) no other follows, so its result is the last. -/
theorem RunOver.cons {n : Nat} {stop : Word → Bool} {s t u : State} {r : StepResult} {rs : List StepResult}
    (hr : ∀ f, t.cpu.loop = .faulted f → r = .error f) (hover : RunOver n stop t u rs)
    (hstay : t.cpu.loop ≠ .running → u = t ∧ rs = []) : RunOver (n + 1) stop s u (r :: rs) where
  bounded := Nat.succ_le_succ hover.bounded
  stopped hrun hlt := hover.stopped hrun (Nat.lt_of_succ_lt_succ hlt)
  faulted f _ hf := by
    by_cases ht : t.cpu.loop = .running
    · rw [List.getLast?_cons, hover.faulted f ht hf, Option.getD_some]
    · obtain ⟨rfl, rfl⟩ := hstay ht
      rw [hr f hf, List.getLast?_singleton]

theorem run_over (n : Nat) (stop : Word → Bool) (s : State) : RunOver n stop s (run n stop s).1 (run n stop s).2 := by
  induction n generalizing s with
  | zero => exact .nil fun _ h => absurd h (Nat.lt_irrefl 0)
  | succ n ih =>
    by_cases hrun : s.cpu.loop = .running
    · cases hstop : stop s.cpu.pc with
      | true =>
        rw [run_stopped hrun hstop]
        exact .nil fun _ _ => hstop
      | false =>
        obtain ⟨t, r, hstep, hres, hr⟩ := step_running_result hrun
        rw [run_step hrun hstop hstep hres]
        exact .cons hr (ih t) fun ht => by simp [run_not_running ht]
    · rw [run_not_running hrun]
      exact .nil fun h => absurd h hrun

/-- Settles O58: the end is read off the final loop state and the number of results, and a run that is over before its
bound while Running is so because of `stop` (`run_over`). -/
theorem runsEndInFourWays : Obligations.RunsEndInFourWays := by
  intro n stop s t rs h
  have hover := run_over n stop s
  rw [h] at hover
  obtain ⟨hbound, hstopped, hfaulted⟩ := hover
  refine ⟨hbound, ?_, ?_, ?_, ?_, hfaulted⟩
  all_goals
    simp only [runEnd, h]
    cases hl : t.cpu.loop with
    | halted => simp
    | faulted f => simp
    | running =>
      by_cases hn : rs.length = n
      · simp [hn]
      · have hlt : rs.length < n := Nat.lt_of_le_of_ne hbound hn
        simp [hn, hlt, hstopped hl hlt]

end Sys2Proof.Machine
